-- ==== Sys2Proof/Word.lean ====
section
/-! DEFINITION. The byte and the five widths of the block (R6, R9, R11). A value of width W is a `BitVec W`: an unsigned
integer with bit W - 1 most significant, exactly as R9 has it. -/

namespace Sys2Proof

/-- R11: "A byte is an unsigned 8-bit value." -/
abbrev Byte := BitVec 8

/-- The engine widths (R6: W in {8, 16, 32, 64, 128}); a width also names its engine, since the block has one engine of
each (R20, D2). -/
inductive Width where
  | w8
  | w16
  | w32
  | w64
  | w128
deriving DecidableEq, Repr

/-- The number of bits of REG_W, POLY_W, `poly_in` and `crc_out` (R20, R41). -/
abbrev Width.bits : Width → Nat
  | .w8 => 8
  | .w16 => 16
  | .w32 => 32
  | .w64 => 64
  | .w128 => 128

/-- The five widths in the order the spec lists them. -/
def Width.all : List Width := [.w8, .w16, .w32, .w64, .w128]

end Sys2Proof
end

