-- ==== Sys2Proof/Syntax.lean ====
section
/-! DEFINITION. What can be put to the block: the twenty commands (R62, R67), the port values that carry one (R60, R61), an
instant of the block's inputs (R51, R52, R220), and the lines of the assembler notation (R71, R72). -/

namespace Sys2Proof

/-- The command set: one constructor per row of opcode_table.json. An operand's type is its exact width, so every term is a
legal command (R63: all 2^W polynomials; R64: all 256 bytes; R69: nothing reserved). -/
inductive Instr where
  | create8 (p : BitVec 8)
  | default8
  | update8 (b : Byte)
  | finalize8
  | create16 (p : BitVec 16)
  | default16
  | update16 (b : Byte)
  | finalize16
  | create32 (p : BitVec 32)
  | default32
  | update32 (b : Byte)
  | finalize32
  | create64 (p : BitVec 64)
  | default64
  | update64 (b : Byte)
  | finalize64
  | create128 (p : BitVec 128)
  | default128
  | update128 (b : Byte)
  | finalize128
deriving DecidableEq, Repr

/-- R62: the four operations, the same at every width. -/
inductive Op where
  | create
  | default
  | update
  | finalize
deriving DecidableEq, Repr

/-- The engine a command is presented to. -/
def Instr.width : Instr → Width
  | .create8 _ | .default8 | .update8 _ | .finalize8 => .w8
  | .create16 _ | .default16 | .update16 _ | .finalize16 => .w16
  | .create32 _ | .default32 | .update32 _ | .finalize32 => .w32
  | .create64 _ | .default64 | .update64 _ | .finalize64 => .w64
  | .create128 _ | .default128 | .update128 _ | .finalize128 => .w128

/-- The operation of a command (R62). -/
def Instr.op : Instr → Op
  | .create8 _ | .create16 _ | .create32 _ | .create64 _ | .create128 _ => .create
  | .default8 | .default16 | .default32 | .default64 | .default128 => .default
  | .update8 _ | .update16 _ | .update32 _ | .update64 _ | .update128 _ => .update
  | .finalize8 | .finalize16 | .finalize32 | .finalize64 | .finalize128 => .finalize

/-- CREATE.W p, for the engine of width W (R90). -/
def Instr.createOf : (W : Width) → BitVec W.bits → Instr
  | .w8, p => .create8 p
  | .w16, p => .create16 p
  | .w32, p => .create32 p
  | .w64, p => .create64 p
  | .w128, p => .create128 p

/-- DEFAULT.W (R91). -/
def Instr.defaultOf : Width → Instr
  | .w8 => .default8
  | .w16 => .default16
  | .w32 => .default32
  | .w64 => .default64
  | .w128 => .default128

/-- UPDATE.W B (R92). -/
def Instr.updateOf : Width → Byte → Instr
  | .w8, b => .update8 b
  | .w16, b => .update16 b
  | .w32, b => .update32 b
  | .w64, b => .update64 b
  | .w128, b => .update128 b

/-- FINALIZE.W (R94). -/
def Instr.finalizeOf : Width → Instr
  | .w8 => .finalize8
  | .w16 => .finalize16
  | .w32 => .finalize32
  | .w64 => .finalize64
  | .w128 => .finalize128

/-- R60: a command as the hardware sees it, "the triple (op, data_in, poly_in) sampled at the instant the command is
issued", on the port group of an engine of width `W`. -/
structure Ports (W : Nat) where
  op : BitVec 2
  dataIn : Byte
  polyIn : BitVec W
deriving DecidableEq, Repr

/-- The commands presented to each engine's port group at one instant. No entry: no command is issued and the engine holds
its state (R60). One entry: a command. Two or more: several issuers at once, to which the spec gives no meaning (R52, R214). -/
structure Instant where
  port8 : List (Ports 8) := []
  port16 : List (Ports 16) := []
  port32 : List (Ports 32) := []
  port64 : List (Ports 64) := []
  port128 : List (Ports 128) := []
deriving DecidableEq, Repr

/-- The commands presented to the engine of width `W` at an instant. -/
def Instant.port (c : Instant) : (W : Width) → List (Ports W.bits)
  | .w8 => c.port8
  | .w16 => c.port16
  | .w32 => c.port32
  | .w64 => c.port64
  | .w128 => c.port128

/-- The instant at which one command is presented, to the engine of width `W`. -/
def Instant.single : (W : Width) → Ports W.bits → Instant
  | .w8, q => { port8 := [q] }
  | .w16, q => { port16 := [q] }
  | .w32, q => { port32 := [q] }
  | .w64, q => { port64 := [q] }
  | .w128, q => { port128 := [q] }

/-- One thing the outside world does to the block: the reset event, common to the five engines (R220), or an instant of the
command ports (R60). The two are never together (log entry 3). -/
inductive Input where
  | reset
  | commands (c : Instant)
deriving DecidableEq, Repr

/-- The byte operand of the notation's `UPDATE.W`, `CRC.W` and `CRCP.W`: numbers, or a quoted text of ASCII characters
(R72). -/
inductive AsmBytes where
  | numbers (l : List Nat)
  | text (l : List Char)
deriving DecidableEq, Repr

/-- R71, R72: a line of the assembler notation, operands still as written. `update` is the list form, of which the one-byte
command is the list of one. -/
inductive AsmLine where
  | create (W : Width) (poly : Nat)
  | default (W : Width)
  | update (W : Width) (bytes : AsmBytes)
  | finalize (W : Width)
  | crc (W : Width) (bytes : AsmBytes)
  | crcp (W : Width) (poly : Nat) (bytes : AsmBytes)
deriving DecidableEq, Repr

end Sys2Proof
end

