-- ==== Sys2Proof/WellFormed.lean ====
section
/-! DEFINITION. Which terms of Syntax are well formed. A command needs no check, because R63, R64 and R69 make every operand
of its width legal and the type holds the width. What is checked is a line of the notation (R71: the ranges of its numbers;
R72: ASCII text) and an instant of the inputs (R52: one command at a time per engine). -/

namespace Sys2Proof

/-- R69: every command with operands of its widths is legal. -/
def Instr.wf : Instr → Bool
  | .create8 _ | .default8 | .update8 _ | .finalize8 => true
  | .create16 _ | .default16 | .update16 _ | .finalize16 => true
  | .create32 _ | .default32 | .update32 _ | .finalize32 => true
  | .create64 _ | .default64 | .update64 _ | .finalize64 => true
  | .create128 _ | .default128 | .update128 _ | .finalize128 => true

/-- R52: "An engine's command port takes one command at a time." -/
def Instant.wf (c : Instant) : Bool :=
  Width.all.all fun W => decide ((c.port W).length ≤ 1)

/-- An input the spec gives a meaning to: reset always (R220), an instant when no engine has two commands (R214). -/
def Input.wf : Input → Bool
  | .reset => true
  | .commands c => c.wf

/-- R71: a byte is "a number 0 .. 255"; R72: a text stands for the ASCII codes of its characters
(log entry 8). -/
def AsmBytes.wf : AsmBytes → Bool
  | .numbers l => l.all fun n => decide (n < 256)
  | .text l => l.all fun c => decide (c.toNat < 128)

/-- R71: a polynomial is "a number 0 .. 2^W - 1". -/
def Width.polyInRange (W : Width) (poly : Nat) : Bool := decide (poly < 2 ^ W.bits)

/-- A line of the notation whose operands are in the ranges of R71 and R72. -/
def AsmLine.wf : AsmLine → Bool
  | .create W poly => W.polyInRange poly
  | .default _ => true
  | .update _ bytes => bytes.wf
  | .finalize _ => true
  | .crc _ bytes => bytes.wf
  | .crcp W poly bytes => W.polyInRange poly && bytes.wf

end Sys2Proof
end

