-- ==== Sys2Proof/Decode.lean ====
section
/-! DEFINITION. Command words and port values to commands, and back (R60 to R70, opcode_table.json). The word of format E_W,
{op, data_in, poly_in} (R61), is a notation: the hardware sees the three ports, and the engine a command is presented to
chooses the format (R60, R70). Decoding is total on words of W + 10 bits (R68); what is no such word is rejected by name. -/

namespace Sys2Proof

/-- R61: the length of format E_W. -/
def Width.wordBits (W : Width) : Nat := W.bits + 10

/-- R62: the `op` code of each operation. -/
def Op.code : Op → BitVec 2
  | .create => 0b00#2
  | .default => 0b01#2
  | .update => 0b10#2
  | .finalize => 0b11#2

/-- R62, R68: the operation a code names; no code is left over. -/
def Op.ofCode (c : BitVec 2) : Op :=
  if c = 0b00#2 then .create
  else if c = 0b01#2 then .default
  else if c = 0b10#2 then .update
  else .finalize

/-- R61: the ports a word of format E_W lists: bits [W+9 : W+8] are `op`, [W+7 : W] `data_in`, [W-1 : 0] `poly_in`. -/
def Ports.ofWord {W : Nat} (x : BitVec (W + 10)) : Ports W :=
  { op := x.extractLsb' (W + 8) 2, dataIn := x.extractLsb' W 8, polyIn := x.extractLsb' 0 W }

/-- R61: the word `{op, data_in, poly_in}` of port values. -/
def Ports.toWord {W : Nat} (q : Ports W) : BitVec (W + 10) :=
  (q.op ++ q.dataIn ++ q.polyIn).cast (by omega)

/-- R68: the command that port values are on engine W. A port the command does not use is ignored (R65). -/
def decodePorts (W : Width) (q : Ports W.bits) : Instr :=
  match Op.ofCode q.op with
  | .create => Instr.createOf W q.polyIn
  | .default => Instr.defaultOf W
  | .update => Instr.updateOf W q.dataIn
  | .finalize => Instr.finalizeOf W

/-- R68: the command a word of format E_W is. -/
def decode (W : Width) (x : BitVec (W.bits + 10)) : Instr := decodePorts W (Ports.ofWord x)

/-- Why bits are no command word: no format has that length (R61), or the value needs more than the format's bits. -/
inductive DecodeReject where
  | noSuchFormat (nbits : Nat)
  | wordTooLong (W : Width)
deriving DecidableEq, Repr

/-- The format of a given length: W + 10 bits (R61), or that many rounded up to whole bytes, as the opcode table's reader
counts them (log entry 6). -/
def formatOfLength (nbits : Nat) : Option Width :=
  Width.all.find? fun W => nbits = W.wordBits ∨ nbits = (W.wordBits + 7) / 8 * 8

/-- Decoding of a length and a value: total, rejecting by name what is no word of a format. -/
def decodeBits (nbits w : Nat) : Except DecodeReject Instr :=
  match formatOfLength nbits with
  | none => .error (.noSuchFormat nbits)
  | some W =>
    if w < 2 ^ W.wordBits then .ok (decode W (BitVec.ofNat (W.bits + 10) w)) else .error (.wordTooLong W)

/-- The instruction the decoder reads from an opcode-table word; bit 0 of the word is bit 0 of `poly_in` (R61). -/
def decodeTableWord (nbits w : Nat) : Option Instr :=
  match decodeBits nbits w with
  | .ok i => some i
  | .error _ => none

/-- The polynomial a command carries on `poly_in`; zero, by the convention of R65, where it uses none. -/
def Instr.polyIn : (i : Instr) → BitVec i.width.bits
  | .create8 p => p
  | .create16 p => p
  | .create32 p => p
  | .create64 p => p
  | .create128 p => p
  | .default8 | .update8 _ | .finalize8 => 0#8
  | .default16 | .update16 _ | .finalize16 => 0#16
  | .default32 | .update32 _ | .finalize32 => 0#32
  | .default64 | .update64 _ | .finalize64 => 0#64
  | .default128 | .update128 _ | .finalize128 => 0#128

/-- The byte a command carries on `data_in`; zero where it uses none (R65). -/
def Instr.dataIn : Instr → Byte
  | .update8 b | .update16 b | .update32 b | .update64 b | .update128 b => b
  | .create8 _ | .create16 _ | .create32 _ | .create64 _ | .create128 _ => 0#8
  | .default8 | .default16 | .default32 | .default64 | .default128 => 0#8
  | .finalize8 | .finalize16 | .finalize32 | .finalize64 | .finalize128 => 0#8

/-- The port values that present a command, unused ports zero (R65). -/
def encodePorts (i : Instr) : Ports i.width.bits :=
  { op := i.op.code, dataIn := i.dataIn, polyIn := i.polyIn }

/-- The command word of a command (R61). -/
def encode (i : Instr) : BitVec (i.width.bits + 10) := (encodePorts i).toWord

/-- The input that presents one command alone. -/
def Instr.present (i : Instr) : Input := .commands (Instant.single i.width (encodePorts i))

/-- R67: `mask` = 3 << (W + 8). -/
def Width.opMask (W : Width) : Nat := 3 <<< (W.bits + 8)

/-- R67: `match` = op << (W + 8). -/
def Instr.tableMatch (i : Instr) : Nat := i.op.code.toNat <<< (i.width.bits + 8)

/-- R62, R67: the bits of the word that a command uses: `op`, and the port of its operand (the `p` or `d` bits of the
table's patterns); the others are the `i` bits. -/
def Width.usedMask (W : Width) : Op → Nat
  | .create => W.opMask + (2 ^ W.bits - 1)
  | .default => W.opMask
  | .update => W.opMask + 255 <<< W.bits
  | .finalize => W.opMask

end Sys2Proof
end

