-- ==== Sys2Proof/Config.lean ====
section
/-! DEFINITION. What the source fixes once and for all (R6, R24, R25): constants wired into the engines, not state and not
arguments. The parameters the spec leaves open (LATENCY, HANDSHAKE, RESULT_BYTE_ORDER: R7) change no computed value and
stand in no definition (log entry 5). -/

namespace Sys2Proof.Config

/-- R10: `ones(W)` = 2^W - 1. -/
def ones (W : Nat) : BitVec W := BitVec.allOnes W

/-- R6: INIT_W, the value CREATE, DEFAULT and reset give REG_W, is all-ones. -/
def initValue (W : Nat) : BitVec W := ones W

/-- R6: XOROUT_W, the value FINALIZE xors REG_W with, is all-ones. -/
def xorOut (W : Nat) : BitVec W := ones W

/-- R6, R25: MSB_W = 1 << (W - 1). -/
def msbMask (W : Nat) : BitVec W := 1#W <<< (W - 1)

/-- R6, R25: ALIGN_W = W - 8; zero for W = 8 (R115). -/
def alignShift (W : Nat) : Nat := W - 8

/-- R6, R112: "Repeat exactly 8 times (once per bit of B)". -/
def stepsPerByte : Nat := 8

/-- R24: DEFAULT_POLY_W, in the binary digits of the source. The 128-bit literal has 124 digits and is zero-extended on
the left (C1). -/
def defaultPoly : (W : Width) → BitVec W.bits
  | .w8 => 0b0000_0111#8
  | .w16 => 0b1000_0000_0000_0101#16
  | .w32 => 0b0000_0100_1100_0001_0001_1101_1011_0111#32
  | .w64 => 0b0100_0010_1111_0000_1110_0001_1110_1011_1010_1001_1110_1010_0011_0110_1001_0011#64
  | .w128 => 0b1110_0011_1100_0011_1101_0101_1010_0111_1110_1001_1111_0111_1101_0100_1110_0001_1111_0011_1111_0000_1111_1011_1010_1011_0110_0101_1100_0111_1000_1001_0001#128

end Sys2Proof.Config
end

