-- ==== Sys2Proof/Machine/Flags.lean ====
section
/-! DEFINITION. The block has no flags, condition codes or predicates (R27), so no flag computation stands here. The one
condition anything depends on is the test of the top bit in a bit step, which is combinational and not kept. -/

namespace Sys2Proof.Machine

/-- R10: msb_W(v) = v[W - 1], the feedback bit of a bit step (R111, R118). -/
def msb {W : Nat} (v : BitVec W) : Bool := v.getLsbD (W - 1)

end Sys2Proof.Machine
end

