-- ==== Sys2Proof/Machine/Operands.lean ====
section
/-! DEFINITION. The operands of the commands. `poly_in` is taken whole (R63); `data_in` is the only operand that is
assembled into a wider value (R64). -/

namespace Sys2Proof.Machine

/-- R64, R110: the byte zero-extended to W bits and shifted left by W - 8, so that B[7] lands on bit W - 1. -/
def alignByte (W : Nat) (b : Byte) : BitVec W := (b.setWidth W) <<< Config.alignShift W

end Sys2Proof.Machine
end

