-- ==== Sys2Proof/Machine/State.lean ====
section
/-! DEFINITION. The state of the block (R20 to R34), why a step can stop (R200, R214), and the state after reset (R32). -/

namespace Sys2Proof.Machine

/-- One engine. `reg` is REG_W (R21), `poly` is POLY_W (R22): the whole of its architectural state (R20). `crcOut` is its
output port: the response of the command just carried out, `none` when there is none (R66, log entry 1). R23 is the type:
both registers have the engine's width, always. -/
structure Engine (W : Nat) where
  reg : BitVec W
  poly : BitVec W
  crcOut : Option (BitVec W)
deriving DecidableEq, Repr

/-- The block: one engine of each width, sharing nothing (R20, R30), and the inputs its owners have yet to present, oldest
first (`pending`: the outside world's, not a register; log entry 2). -/
structure State where
  crc8 : Engine 8
  crc16 : Engine 16
  crc32 : Engine 32
  crc64 : Engine 64
  crc128 : Engine 128
  pending : List Input
deriving DecidableEq, Repr

/-- There is no fault: "The set of synchronous exceptions is empty" (R200), and a model must not add one (R201). -/
inductive Fault : Type
deriving DecidableEq, Repr

/-- Why the model gives an input no meaning. -/
inductive Refusal where
  /-- Raised by `exec` for a command whose meaning is not written yet; safe. No arm raises it now. -/
  | notModelled (mnemonic : String)
  /-- Raised by `issue` when two or more commands are presented to one engine at the same instant, for which the spec gives
  no result (R52, R214); safe: nothing can then be proved of the run (R214: "errs toward unprovable"). -/
  | simultaneousCommands (engine : Width)
deriving DecidableEq, Repr

/-- R32: after reset REG_W = ones(W) and POLY_W = DEFAULT_POLY_W for every W; no result is given (R220), and nothing has
been presented yet (log entry 2). No state stands for the block before its first reset (R221; log entry 7). -/
def State.reset : State :=
  { crc8 := { reg := Config.initValue 8, poly := Config.defaultPoly .w8, crcOut := none }
    crc16 := { reg := Config.initValue 16, poly := Config.defaultPoly .w16, crcOut := none }
    crc32 := { reg := Config.initValue 32, poly := Config.defaultPoly .w32, crcOut := none }
    crc64 := { reg := Config.initValue 64, poly := Config.defaultPoly .w64, crcOut := none }
    crc128 := { reg := Config.initValue 128, poly := Config.defaultPoly .w128, crcOut := none }
    pending := [] }

end Sys2Proof.Machine
end

