-- ==== Sys2Proof/Machine/Ops.lean ====
section
/-! DEFINITION. The shared operations: the engine accessors, the per-byte fold (R110 to R112), the four commands on one
engine (R90 to R94), the commands on the block, and the reset event (R220). There is no exception to take and none to return
from (R200, R205, R206), and no memory (R40), so no operation for either. -/

namespace Sys2Proof.Machine

/-! ### The fold -/

/-- R110: align_W(r, B) = r xor shl_W(zext_W(B), W - 8). -/
def align {W : Nat} (r : BitVec W) (b : Byte) : BitVec W := r ^^^ alignByte W b

/-- R111: one bit step: shift left, then xor the polynomial if the top bit was set before the shift. -/
def bitStep {W : Nat} (r p : BitVec W) : BitVec W :=
  if msb r then (r <<< 1) ^^^ p else r <<< 1

/-- `n` bit steps with the same polynomial. -/
def bitSteps {W : Nat} (p : BitVec W) : Nat → BitVec W → BitVec W
  | 0, r => r
  | n + 1, r => bitSteps p n (bitStep r p)

/-- R112: fold_W: align once, then exactly eight bit steps. -/
def fold {W : Nat} (r p : BitVec W) (b : Byte) : BitVec W :=
  bitSteps p Config.stepsPerByte (align r b)

/-! ### The commands on one engine -/

/-- R90: POLY_W <- p and REG_W <- ones(W), together; no result. Nothing of the old engine survives, so it is no argument. -/
def Engine.create {W : Nat} (p : BitVec W) : Engine W :=
  { reg := Config.initValue W, poly := p, crcOut := none }

/-- R92: REG_W <- fold_W(REG_W, POLY_W, B); POLY_W is read only; no result. -/
def Engine.update {W : Nat} (e : Engine W) (b : Byte) : Engine W :=
  { e with reg := fold e.reg e.poly b, crcOut := none }

/-- R94: crc_out = REG_W xor ones(W); REG_W and POLY_W unchanged. -/
def Engine.finalize {W : Nat} (e : Engine W) : Engine W :=
  { e with crcOut := some (e.reg ^^^ Config.xorOut W) }

/-- The engine with no response on its output port (R66: `crc_out` is defined only as the response to FINALIZE). -/
def Engine.quiet {W : Nat} (e : Engine W) : Engine W := { e with crcOut := none }

/-! ### The engines of the block -/

/-- The engine of width `W`. -/
def State.engine (s : State) : (W : Width) → Engine W.bits
  | .w8 => s.crc8
  | .w16 => s.crc16
  | .w32 => s.crc32
  | .w64 => s.crc64
  | .w128 => s.crc128

/-- The block with the engine of width `W` replaced. -/
def State.setEngine (s : State) : (W : Width) → Engine W.bits → State
  | .w8, e => { s with crc8 := e }
  | .w16, e => { s with crc16 := e }
  | .w32, e => { s with crc32 := e }
  | .w64, e => { s with crc64 := e }
  | .w128, e => { s with crc128 := e }

/-- No engine gives a response: what every instant begins with. -/
def State.quiet (s : State) : State :=
  { s with
    crc8 := s.crc8.quiet
    crc16 := s.crc16.quiet
    crc32 := s.crc32.quiet
    crc64 := s.crc64.quiet
    crc128 := s.crc128.quiet }

/-- What a step or a meaning answers. -/
abbrev Result := Host.Outcome State Fault Refusal

/-- CREATE.W p on the block: only engine W changes (R30). -/
def createOn (W : Width) (p : BitVec W.bits) (s : State) : Result :=
  .next (s.setEngine W (Engine.create p))

/-- DEFAULT.W on the block: exactly CREATE.W DEFAULT_POLY_W (R91). -/
def defaultOn (W : Width) (s : State) : Result := createOn W (Config.defaultPoly W) s

/-- UPDATE.W B on the block. -/
def updateOn (W : Width) (b : Byte) (s : State) : Result :=
  .next (s.setEngine W ((s.engine W).update b))

/-- FINALIZE.W on the block. -/
def finalizeOn (W : Width) (s : State) : Result :=
  .next (s.setEngine W (s.engine W).finalize)

/-- R220: reset is DEFAULT.W on every engine; it takes no operand and produces no result. -/
def State.resetEngines (s : State) : State :=
  { s with
    crc8 := Engine.create (Config.defaultPoly .w8)
    crc16 := Engine.create (Config.defaultPoly .w16)
    crc32 := Engine.create (Config.defaultPoly .w32)
    crc64 := Engine.create (Config.defaultPoly .w64)
    crc128 := Engine.create (Config.defaultPoly .w128) }

end Sys2Proof.Machine
end

