-- ==== Sys2Proof/Machine/Crc128.lean ====
section
/-! DEFINITION. The four commands of the CRC128 engine (R180 to R184). -/

namespace Sys2Proof.Machine

/-- R181, CREATE.128 p. -/
def execCreate128 (p : BitVec 128) (s : State) : Result := createOn .w128 p s

/-- R182, DEFAULT.128. -/
def execDefault128 (s : State) : Result := defaultOn .w128 s

/-- R183, UPDATE.128 B. -/
def execUpdate128 (b : Byte) (s : State) : Result := updateOn .w128 b s

/-- R184, FINALIZE.128. -/
def execFinalize128 (s : State) : Result := finalizeOn .w128 s

end Sys2Proof.Machine
end

