-- ==== Sys2Proof/Machine/Crc16.lean ====
section
/-! DEFINITION. The four commands of the CRC16 engine (R150 to R154). -/

namespace Sys2Proof.Machine

/-- R151, CREATE.16 p. -/
def execCreate16 (p : BitVec 16) (s : State) : Result := createOn .w16 p s

/-- R152, DEFAULT.16. -/
def execDefault16 (s : State) : Result := defaultOn .w16 s

/-- R153, UPDATE.16 B. -/
def execUpdate16 (b : Byte) (s : State) : Result := updateOn .w16 b s

/-- R154, FINALIZE.16. -/
def execFinalize16 (s : State) : Result := finalizeOn .w16 s

end Sys2Proof.Machine
end

