-- ==== Sys2Proof/Machine/Crc32.lean ====
section
/-! DEFINITION. The four commands of the CRC32 engine (R160 to R164). -/

namespace Sys2Proof.Machine

/-- R161, CREATE.32 p. -/
def execCreate32 (p : BitVec 32) (s : State) : Result := createOn .w32 p s

/-- R162, DEFAULT.32. -/
def execDefault32 (s : State) : Result := defaultOn .w32 s

/-- R163, UPDATE.32 B. -/
def execUpdate32 (b : Byte) (s : State) : Result := updateOn .w32 b s

/-- R164, FINALIZE.32. -/
def execFinalize32 (s : State) : Result := finalizeOn .w32 s

end Sys2Proof.Machine
end

