-- ==== Sys2Proof/Machine/Crc64.lean ====
section
/-! DEFINITION. The four commands of the CRC64 engine (R170 to R174). -/

namespace Sys2Proof.Machine

/-- R171, CREATE.64 p. -/
def execCreate64 (p : BitVec 64) (s : State) : Result := createOn .w64 p s

/-- R172, DEFAULT.64. -/
def execDefault64 (s : State) : Result := defaultOn .w64 s

/-- R173, UPDATE.64 B. -/
def execUpdate64 (b : Byte) (s : State) : Result := updateOn .w64 b s

/-- R174, FINALIZE.64. -/
def execFinalize64 (s : State) : Result := finalizeOn .w64 s

end Sys2Proof.Machine
end

