-- ==== Sys2Proof/Machine/Crc8.lean ====
section
/-! DEFINITION. The four commands of the CRC8 engine (R140 to R144). -/

namespace Sys2Proof.Machine

/-- R141, CREATE.8 p. -/
def execCreate8 (p : BitVec 8) (s : State) : Result := createOn .w8 p s

/-- R142, DEFAULT.8. -/
def execDefault8 (s : State) : Result := defaultOn .w8 s

/-- R143, UPDATE.8 B. -/
def execUpdate8 (b : Byte) (s : State) : Result := updateOn .w8 b s

/-- R144, FINALIZE.8. -/
def execFinalize8 (s : State) : Result := finalizeOn .w8 s

end Sys2Proof.Machine
end

