-- ==== Sys2Proof/Machine/Dispatch.lean ====
section
/-! DEFINITION. One arm per command, each a direct call of its meaning (R67). -/

namespace Sys2Proof.Machine

def exec (i : Instr) (s : State) : Host.Outcome State Fault Refusal :=
  match i with
  | .create8 p => Sys2Proof.Machine.execCreate8 p s
  | .default8 => Sys2Proof.Machine.execDefault8 s
  | .update8 b => Sys2Proof.Machine.execUpdate8 b s
  | .finalize8 => Sys2Proof.Machine.execFinalize8 s
  | .create16 p => Sys2Proof.Machine.execCreate16 p s
  | .default16 => Sys2Proof.Machine.execDefault16 s
  | .update16 b => Sys2Proof.Machine.execUpdate16 b s
  | .finalize16 => Sys2Proof.Machine.execFinalize16 s
  | .create32 p => Sys2Proof.Machine.execCreate32 p s
  | .default32 => Sys2Proof.Machine.execDefault32 s
  | .update32 b => Sys2Proof.Machine.execUpdate32 b s
  | .finalize32 => Sys2Proof.Machine.execFinalize32 s
  | .create64 p => Sys2Proof.Machine.execCreate64 p s
  | .default64 => Sys2Proof.Machine.execDefault64 s
  | .update64 b => Sys2Proof.Machine.execUpdate64 b s
  | .finalize64 => Sys2Proof.Machine.execFinalize64 s
  | .create128 p => Sys2Proof.Machine.execCreate128 p s
  | .default128 => Sys2Proof.Machine.execDefault128 s
  | .update128 b => Sys2Proof.Machine.execUpdate128 b s
  | .finalize128 => Sys2Proof.Machine.execFinalize128 s

end Sys2Proof.Machine
end

