-- ==== Sys2Proof/Machine/Issue.lean ====
section
/-! DEFINITION. How the block takes an instant of its inputs: the commands presented to the engines' port groups, the reset
event, or nothing (R50 to R52, R60, R214, R220). -/

namespace Sys2Proof.Machine

/-- The commands in turn, each seeing all of the effect of those before it (R50, R229). -/
def execAll : List Instr → State → Result
  | [], s => .next s
  | i :: is, s =>
    match exec i s with
    | .next t => execAll is t
    | .fault r => .fault r
    | .refused r => .refused r

/-- The first engine to which two or more commands are presented (R52, R214; log entry 10). -/
def contendedEngine (c : Instant) : Option Width :=
  Width.all.find? fun W => decide (2 ≤ (c.port W).length)

/-- The commands of an instant, engine by engine. Where no engine has two, their order has no effect (R51; log entry 4). -/
def instantCommands (c : Instant) : List Instr :=
  Width.all.flatMap fun W => (c.port W).map (decodePorts W)

/-- One instant of the command ports: refused when an engine is contended (R214), else every command is carried out. -/
def issue (c : Instant) (s : State) : Result :=
  match contendedEngine c with
  | some W => .refused (.simultaneousCommands W)
  | none => execAll (instantCommands c) s

/-- The next input of the owner. None: no command is issued and the engines hold their state (R60, R223). Reset: R220. In
every case a response belongs to its own instant only (R66), so the instant begins with none. -/
def takeInput (s : State) : Result :=
  match s.pending with
  | [] => .next s.quiet
  | .reset :: rest => .next ({ s with pending := rest } : State).resetEngines
  | .commands c :: rest => issue c ({ s with pending := rest } : State).quiet

/-- The responses that engine `W` gives in a command sequence, in order (R50, R66). -/
def responses (W : Width) : List Instr → State → List (BitVec W.bits)
  | [], _ => []
  | i :: is, s =>
    match exec i s with
    | .next t => (if i.width = W then (t.engine W).crcOut.toList else []) ++ responses W is t
    | .fault _ => []
    | .refused _ => []

/-- A table word presented as the block's next input, on the port group of the engine whose format has its length; the
state as it is where the bits are no command word. -/
def presentWord (s : State) (nbits w : Nat) : State :=
  match formatOfLength nbits with
  | none => s
  | some W =>
    if w < 2 ^ W.wordBits then
      { s with pending := .commands (Instant.single W (Ports.ofWord (BitVec.ofNat (W.bits + 10) w))) :: s.pending }
    else s

end Sys2Proof.Machine
end

