-- ==== Sys2Proof/Machine/Step.lean ====
section
/-! DEFINITION. One step of the block: it takes the next input its owners present (R8, R50, R60). There is no program counter
and no fetch (R26, R54). -/

namespace Sys2Proof.Machine

/-- One instant of the block. -/
def step (s : State) : Host.Outcome State Fault Refusal := takeInput s

/-- `s` with the command of a table word presented next: the very next step carries out exactly it (log entry 2). -/
def State.withFetchWord (s : State) (nbits w : Nat) : State := presentWord s nbits w

end Sys2Proof.Machine
end

