-- ==== Sys2Proof/Machine/Assembler.lean ====
section
/-! DEFINITION. The assembler notation's lines as the commands they stand for (R71, R72). No line is more than the commands
it expands to. -/

namespace Sys2Proof.Machine

/-- R72: the bytes a list or a text stands for, first byte first; a character stands for its ASCII code. -/
def asmBytes : AsmBytes → List Byte
  | .numbers l => l.map (BitVec.ofNat 8)
  | .text l => l.map fun c => BitVec.ofNat 8 c.toNat

/-- R93: `update(data)` is one UPDATE.W per byte, in order; none for no bytes. -/
def updateCommands (W : Width) (d : List Byte) : List Instr := d.map (Instr.updateOf W)

/-- R71, R72: the commands of a line. -/
def expand : AsmLine → List Instr
  | .create W poly => [Instr.createOf W (BitVec.ofNat W.bits poly)]
  | .default W => [Instr.defaultOf W]
  | .update W bytes => updateCommands W (asmBytes bytes)
  | .finalize W => [Instr.finalizeOf W]
  | .crc W bytes => Instr.defaultOf W :: updateCommands W (asmBytes bytes) ++ [Instr.finalizeOf W]
  | .crcp W poly bytes =>
    Instr.createOf W (BitVec.ofNat W.bits poly) :: updateCommands W (asmBytes bytes) ++ [Instr.finalizeOf W]

/-- A line whose operands are in range gives its commands; any other is no line (R71). -/
def assemble (l : AsmLine) : Option (List Instr) := if l.wf then some (expand l) else none

end Sys2Proof.Machine
end

