-- ==== Sys2Proof/Machine/Message.lean ====
section
/-! DEFINITION. Functions of a whole message that the contract is stated with (R93, R100). They are not part of the step:
the block folds one byte per command and holds no message (R26, R40). -/

namespace Sys2Proof.Machine

/-- R93: update_W(r, p, d), the accumulator after folding the bytes `d`, first byte first. -/
def updateMessage {W : Nat} (r p : BitVec W) : List Byte → BitVec W
  | [] => r
  | b :: d => updateMessage (fold r p b) p d

/-- R100: crc_W(p, d) = update_W(ones(W), p, d) xor ones(W). -/
def crc {W : Nat} (p : BitVec W) (d : List Byte) : BitVec W :=
  updateMessage (Config.initValue W) p d ^^^ Config.xorOut W

end Sys2Proof.Machine
end

