-- ==== Sys2Proof/Machine/Realisation.lean ====
section
/-! DEFINITION. The two realisations the spec admits for the fold (R117, R230, D12), written from their own equations: the
bit-serial shift register (R118) and the byte-parallel XOR tree (R122). The machine's meaning of UPDATE is the defining rule
R112; that these compute the same value is for proofs to say. -/

namespace Sys2Proof.Machine

/-- R118: the next value of the W-stage shift register: stage 0 takes f and p[0]; stage i takes r[i-1] xor (f and p[i]),
where f = r[W-1] is the feedback bit. The mask repeats f in every stage: it is the row of AND gates that POLY_W enables. -/
def shiftRegisterNext {W : Nat} (r p : BitVec W) : BitVec W :=
  (r <<< 1) ^^^ (BitVec.fill W (r.getLsbD (W - 1)) &&& p)

/-- The bit-serial realisation between two of its clock edges: the shift register, the taps, and how many bit steps of the
byte are still to do. That count belongs to the realisation only; it is zero before and after every command (R26; log entry 9). -/
structure SerialEngine (W : Nat) where
  shift : BitVec W
  taps : BitVec W
  left : Nat
deriving DecidableEq, Repr

/-- Taking a byte: the align step, with eight bit steps to do (R110, R112). -/
def SerialEngine.load {W : Nat} (r p : BitVec W) (b : Byte) : SerialEngine W :=
  { shift := r ^^^ alignByte W b, taps := p, left := 8 }

/-- One clock: one bit step if any is left, else the registers hold. -/
def SerialEngine.clock {W : Nat} (e : SerialEngine W) : SerialEngine W :=
  match e.left with
  | 0 => e
  | n + 1 => { e with shift := shiftRegisterNext e.shift e.taps, left := n }

/-- `n` clocks. -/
def SerialEngine.clocks {W : Nat} : Nat → SerialEngine W → SerialEngine W
  | 0, e => e
  | n + 1, e => SerialEngine.clocks n e.clock

/-- The xor of feedback bits with the polynomial's top bits: for `fs` = f_j, f_(j-1), …, f_1 and `i` = 1 it is the
XOR of f_j and p[W-1], f_(j-1) and p[W-2], … (R122). -/
def tapSum {W : Nat} (p : BitVec W) : Nat → List Bool → Bool
  | _, [] => false
  | i, f :: fs => (f && p.getLsbD (W - i)) ^^ tapSum p (i + 1) fs

/-- R122: the first `k` feedback bits, newest first: f_k, …, f_1, where
f_k = t[8-k] xor the XOR over j = 1 .. k-1 of (f_j and p[W-(k-j)]). -/
def feedbackBits {W : Nat} (p : BitVec W) (t : Byte) : Nat → List Bool
  | 0 => []
  | k + 1 => (t.getLsbD (7 - k) ^^ tapSum p 1 (feedbackBits p t k)) :: feedbackBits p t k

/-- The xor of the shifted polynomials that the feedback bits select: for `fs` = f_8, …, f_1 and `n` = 0 it is the XOR over
k of (f_k ? shl_W(p, 8-k) : 0) (R122). -/
def tapImages {W : Nat} (p : BitVec W) : Nat → List Bool → BitVec W
  | _, [] => 0#W
  | n, f :: fs => (if f then p <<< n else 0#W) ^^^ tapImages p (n + 1) fs

/-- R122: the top byte of an aligned register, u[W-1 : W-8]. -/
def topByte {W : Nat} (u : BitVec W) : Byte := u.extractLsb' (W - 8) 8

/-- R122: the fold in one pass, as an XOR tree over the aligned register and the eight feedback bits. -/
def xorTreeFold {W : Nat} (r p : BitVec W) (b : Byte) : BitVec W :=
  let u := r ^^^ alignByte W b
  (u <<< 8) ^^^ tapImages p 0 (feedbackBits p (topByte u) 8)

end Sys2Proof.Machine
end

