-- ==== Sys2Proof/Safety.lean ====
section
/-! DEFINITION. What a safe run is. The block never faults, hangs or gets stuck (R200, R214); the one thing its owners owe it
is not to present two commands to one engine at once (R52). -/

namespace Sys2Proof.Machine

/-- R52: the owners present at most one command to an engine at any instant, now and later. -/
def State.singleIssuer (s : State) : Bool := s.pending.all Input.wf

/-- The block runs on for ever from `s`: no number of steps stops it. -/
def State.RunsOn (s : State) : Prop := ∀ n : Nat, ∃ t : State, Host.Core.run Sys2Proof.core n s = .next t

/-- R104: what an engine's output port carries, when it carries a response, is its register complemented. -/
def Engine.outputAgrees {W : Nat} (e : Engine W) : Bool :=
  match e.crcOut with
  | none => true
  | some v => decide (v = e.reg ^^^ Config.ones W)

/-- Every response on an output port answers for the register as it stands (R94, R104), and the owners keep the
single-issuer rule (R52). -/
def State.Inv (s : State) : Prop := (∀ W : Width, (s.engine W).outputAgrees = true) ∧ s.singleIssuer = true

end Sys2Proof.Machine
end

