-- ==== Sys2Proof/Certificates/Slice0/Obligations.lean ====
section
/-! DEFINITION. The statements for the provers, rule by rule: encoding, the commands, the fold and its equivalent forms, the
contract's laws, the block's inputs, reset, and the whole-machine rules. The helpers of `Sys2Proof.Claims` say what a rule
says in the rule's own numbers and pseudocode; no part of the machine uses them. -/

open Sys2Proof Sys2Proof.Machine

/-! ### What the statements are written with -/

namespace Sys2Proof.Claims

/-- A row of the opcode table (R67): the engine, the operation, `match` and `mask`. -/
structure TableRow where
  engine : Width
  op : Op
  matchBits : Nat
  mask : Nat

/-- opcode_table.json, all twenty rows: CREATE, DEFAULT, UPDATE, FINALIZE of each width. -/
def opcodeTable : List TableRow :=
  [⟨.w8, .create, 0x00000, 0x30000⟩, ⟨.w8, .default, 0x10000, 0x30000⟩,
   ⟨.w8, .update, 0x20000, 0x30000⟩, ⟨.w8, .finalize, 0x30000, 0x30000⟩,
   ⟨.w16, .create, 0x0000000, 0x3000000⟩, ⟨.w16, .default, 0x1000000, 0x3000000⟩,
   ⟨.w16, .update, 0x2000000, 0x3000000⟩, ⟨.w16, .finalize, 0x3000000, 0x3000000⟩] ++
  [⟨.w32, .create, 0x00000000000, 0x30000000000⟩, ⟨.w32, .default, 0x10000000000, 0x30000000000⟩,
   ⟨.w32, .update, 0x20000000000, 0x30000000000⟩, ⟨.w32, .finalize, 0x30000000000, 0x30000000000⟩,
   ⟨.w64, .create, 0x0000000000000000000, 0x3000000000000000000⟩,
   ⟨.w64, .default, 0x1000000000000000000, 0x3000000000000000000⟩,
   ⟨.w64, .update, 0x2000000000000000000, 0x3000000000000000000⟩,
   ⟨.w64, .finalize, 0x3000000000000000000, 0x3000000000000000000⟩] ++
  [⟨.w128, .create, 0x00000000000000000000000000000000000, 0x30000000000000000000000000000000000⟩,
   ⟨.w128, .default, 0x10000000000000000000000000000000000, 0x30000000000000000000000000000000000⟩,
   ⟨.w128, .update, 0x20000000000000000000000000000000000, 0x30000000000000000000000000000000000⟩,
   ⟨.w128, .finalize, 0x30000000000000000000000000000000000, 0x30000000000000000000000000000000000⟩]

/-- The words under `mask` and `matchBits` decode to what `f` reads from them. -/
def Encodes (W : Width) (mask matchBits : Nat) (f : BitVec (W.bits + 10) → Instr) : Prop :=
  ∀ x : BitVec (W.bits + 10), x.toNat &&& mask = matchBits → decode W x = f x

/-- What R141, R151, R161, R171, R181 say of CREATE.W: encoding, effect and frame, the worked example's word. -/
def CreateRule (W : Width) (mk : BitVec W.bits → Instr) (put : State → Engine W.bits → State)
    (allOnes : BitVec W.bits) (mask matchBits exWord : Nat) (exPoly : BitVec W.bits) : Prop :=
  Encodes W mask matchBits (fun x => mk (x.extractLsb' 0 W.bits)) ∧
  (∀ (s : State) (p : BitVec W.bits), exec (mk p) s = .next (put s { reg := allOnes, poly := p, crcOut := none })) ∧
  decode W (BitVec.ofNat (W.bits + 10) exWord) = mk exPoly

/-- What R142, R152, R162, R172, R182 say of DEFAULT.W; it equals CREATE.W of the constant, and it is what reset does to
the engine. -/
def DefaultRule (W : Width) (cmd : Instr) (mk : BitVec W.bits → Instr) (put : State → Engine W.bits → State)
    (allOnes poly : BitVec W.bits) (mask matchBits : Nat) : Prop :=
  Encodes W mask matchBits (fun _ => cmd) ∧
  (∀ s : State, exec cmd s = .next (put s { reg := allOnes, poly := poly, crcOut := none })) ∧
  (∀ s : State, exec cmd s = exec (mk poly) s) ∧
  exec cmd State.reset = .next State.reset

/-- One turn of the loop in the pseudocode of R143, R153, R163, R173, R183: the mask test on the old value, then the shift. -/
def loopTurn {W : Nat} (mask p t : BitVec W) : BitVec W :=
  if t &&& mask ≠ 0#W then (t <<< 1) ^^^ p else t <<< 1

/-- `n` turns of that loop. -/
def loopTurns {W : Nat} (mask p : BitVec W) : Nat → BitVec W → BitVec W
  | 0, t => t
  | n + 1, t => loopTurn mask p (loopTurns mask p n t)

/-- What R143, R153, R163, R173, R183 say of UPDATE.W: encoding; effect and frame by the rule's own loop; the corner case of
the byte that equals the register's top byte; the worked example with its nine intermediate values, and the byte after it. -/
def UpdateRule (W : Width) (mk : Byte → Instr) (get : State → Engine W.bits) (put : State → Engine W.bits → State)
    (shift : Nat) (msbMask : BitVec W.bits) (mask matchBits exWord : Nat)
    (allOnes poly : BitVec W.bits) (trace : List (BitVec W.bits)) (next : BitVec W.bits) : Prop :=
  let updated (r p : BitVec W.bits) (b : Byte) := loopTurns msbMask p 8 (r ^^^ ((b.setWidth W.bits) <<< shift))
  Encodes W mask matchBits (fun x => mk (x.extractLsb' W.bits 8)) ∧
  (∀ (s : State) (b : Byte), exec (mk b) s =
    .next (put s { reg := updated (get s).reg (get s).poly b, poly := (get s).poly, crcOut := none })) ∧
  (∀ (s : State) (b : Byte), b = (get s).reg.extractLsb' (W.bits - 8) 8 → exec (mk b) s =
    .next (put s { reg := (get s).reg <<< 8, poly := (get s).poly, crcOut := none })) ∧
  decode W (BitVec.ofNat (W.bits + 10) exWord) = mk 0x68#8 ∧
  (List.range 9).map (fun n => loopTurns msbMask poly n (allOnes ^^^ ((0x68#8).setWidth W.bits <<< shift))) = trace ∧
  updated (updated allOnes poly 0x68#8) poly 0x65#8 = next

/-- The ASCII bytes of "hello world" (95_test_vectors.md). -/
def helloWorld : List Byte :=
  [0x68#8, 0x65#8, 0x6C#8, 0x6C#8, 0x6F#8, 0x20#8, 0x77#8, 0x6F#8, 0x72#8, 0x6C#8, 0x64#8]

/-- What R144, R154, R164, R174, R184 say of FINALIZE.W: encoding; the result, on any register, with nothing else changed;
zero on a fresh engine whatever the polynomial; repeating it repeats the result; the worked example, from DEFAULT.W on. -/
def FinalizeRule (W : Width) (cmd : Instr) (get : State → Engine W.bits) (put : State → Engine W.bits → State)
    (allOnes : BitVec W.bits) (mask matchBits : Nat) (exReg exResult : BitVec W.bits) : Prop :=
  Encodes W mask matchBits (fun _ => cmd) ∧
  (∀ s : State, exec cmd s =
    .next (put s { reg := (get s).reg, poly := (get s).poly, crcOut := some ((get s).reg ^^^ allOnes) })) ∧
  (∀ s : State, (get s).reg = allOnes → exec cmd s =
    .next (put s { reg := allOnes, poly := (get s).poly, crcOut := some 0#W.bits })) ∧
  (∀ s : State, ∃ t : State, exec cmd s = .next t ∧ exec cmd t = .next t) ∧
  (∀ s : State, ∃ t : State, execAll (Instr.defaultOf W :: updateCommands W helloWorld) s = .next t ∧ (get t).reg = exReg ∧
    exec cmd t = .next (put t { reg := exReg, poly := (get t).poly, crcOut := some exResult }))

/-- Two states with the same registers in every engine (outputs and inputs apart). -/
def SameRegisters (s t : State) : Prop :=
  ∀ W : Width, (s.engine W).reg = (t.engine W).reg ∧ (s.engine W).poly = (t.engine W).poly

/-- The register after UPDATE.W of the bytes `d` on CREATE.W 0, as R145, R155, R165, R175, R185 tabulate it by the number
of bytes, with the result of FINALIZE.W there. -/
def PolynomialZeroTable (W : Width) (rows : List (BitVec W.bits × BitVec W.bits)) : Prop :=
  ∀ (s : State) (d : List Byte) (row : BitVec W.bits × BitVec W.bits), rows[d.length]? = some row →
    ∃ t, execAll (Instr.createOf W 0#W.bits :: d.map (Instr.updateOf W) ++ [Instr.finalizeOf W]) s = .next t ∧
      t.engine W = { reg := row.1, poly := 0#W.bits, crcOut := some row.2 }

/-- The XOR of the rows of an XOR-tree table whose bit of `t` is 1, the first row standing for bit `j` (R146). -/
def xorRows {W : Nat} (t : Byte) : Nat → List (BitVec W) → BitVec W
  | _, [] => 0#W
  | j, row :: rows => (if t.getLsbD j then row else 0#W) ^^^ xorRows t (j + 1) rows

/-- What R146, R156, R166, R176, R186 say of the table of a default polynomial: its rows are the folds of the eight one-bit
bytes, g is the xor of the rows selected by t, and the new register is the shifted register xor g. -/
def XorTreeTable {W : Nat} (poly : BitVec W) (rows : List (BitVec W)) : Prop :=
  rows = (List.range 8).map (fun j => fold 0#W poly (1#8 <<< j)) ∧
  (∀ t : Byte, fold 0#W poly t = xorRows t 0 rows) ∧
  (∀ (r : BitVec W) (b : Byte), fold r poly b = (r <<< 8) ^^^ xorRows (r.extractLsb' (W - 8) 8 ^^^ b) 0 rows)

/-- R119: a W-bit value read as a polynomial over GF(2): v(x) = Σ v[i]·x^i. -/
noncomputable def asPoly {W : Nat} (v : BitVec W) : Polynomial (ZMod 2) :=
  ∑ i ∈ Finset.range W, if v.getLsbD i then (Polynomial.X : Polynomial (ZMod 2)) ^ i else 0

/-- R11, R119: G(x) = x^W + p(x), the x^W term implicit in the polynomial value. -/
noncomputable def generator {W : Nat} (p : BitVec W) : Polynomial (ZMod 2) :=
  Polynomial.X ^ W + asPoly p

/-- R120: M(x) = Σ_k d[k](x)·x^(8(n-1-k)), the message as one polynomial, first byte highest. -/
noncomputable def messagePoly (d : List Byte) : Polynomial (ZMod 2) :=
  ∑ k ∈ Finset.range d.length, asPoly (d.getD k 0#8) * Polynomial.X ^ (8 * (d.length - 1 - k))

end Sys2Proof.Claims

open Sys2Proof.Claims

/-! ### Encoding -/

/-- R61: the five formats, their lengths, and where `op`, `data_in` and `poly_in` lie in the word. -/
def Obligations.CommandFormatsPlaceTheirFields : Prop :=
  (Width.w8.wordBits = 18 ∧ (∀ x : BitVec 18, Ports.ofWord (W := 8) x =
      { op := x.extractLsb 17 16, dataIn := x.extractLsb 15 8, polyIn := x.extractLsb 7 0 }) ∧
    ∀ q : Ports 8, q.toWord = q.op ++ q.dataIn ++ q.polyIn) ∧
  (Width.w16.wordBits = 26 ∧ (∀ x : BitVec 26, Ports.ofWord (W := 16) x =
      { op := x.extractLsb 25 24, dataIn := x.extractLsb 23 16, polyIn := x.extractLsb 15 0 }) ∧
    ∀ q : Ports 16, q.toWord = q.op ++ q.dataIn ++ q.polyIn) ∧
  (Width.w32.wordBits = 42 ∧ (∀ x : BitVec 42, Ports.ofWord (W := 32) x =
      { op := x.extractLsb 41 40, dataIn := x.extractLsb 39 32, polyIn := x.extractLsb 31 0 }) ∧
    ∀ q : Ports 32, q.toWord = q.op ++ q.dataIn ++ q.polyIn) ∧
  (Width.w64.wordBits = 74 ∧ (∀ x : BitVec 74, Ports.ofWord (W := 64) x =
      { op := x.extractLsb 73 72, dataIn := x.extractLsb 71 64, polyIn := x.extractLsb 63 0 }) ∧
    ∀ q : Ports 64, q.toWord = q.op ++ q.dataIn ++ q.polyIn) ∧
  (Width.w128.wordBits = 138 ∧ (∀ x : BitVec 138, Ports.ofWord (W := 128) x =
      { op := x.extractLsb 137 136, dataIn := x.extractLsb 135 128, polyIn := x.extractLsb 127 0 }) ∧
    ∀ q : Ports 128, q.toWord = q.op ++ q.dataIn ++ q.polyIn)

/-- R68: decoding is total and follows the rule's case table; a word of W + 10 bits is exactly one command of engine W. -/
def Obligations.DecodingIsTotalAndFollowsOp : Prop :=
  ∀ (W : Width) (x : BitVec (W.bits + 10)),
    decodeBits W.wordBits x.toNat = .ok (decode W x) ∧ (decode W x).width = W ∧
    (x.extractLsb' (W.bits + 8) 2 = 0b00#2 → decode W x = Instr.createOf W (x.extractLsb' 0 W.bits)) ∧
    (x.extractLsb' (W.bits + 8) 2 = 0b01#2 → decode W x = Instr.defaultOf W) ∧
    (x.extractLsb' (W.bits + 8) 2 = 0b10#2 → decode W x = Instr.updateOf W (x.extractLsb' W.bits 8)) ∧
    (x.extractLsb' (W.bits + 8) 2 = 0b11#2 → decode W x = Instr.finalizeOf W)

/-- From R67: each row of the opcode table selects exactly the words of its command, among the words of its format. -/
def Obligations.OpcodeTableRowsSelectTheirCommands : Prop :=
  ∀ row ∈ opcodeTable, ∀ x : BitVec (row.engine.bits + 10),
    x.toNat &&& row.mask = row.matchBits ↔ (decode row.engine x).op = row.op

/-- R65: two port samples are the same command exactly when they agree on `op` and on the port that command uses, so the
other ports affect neither the state nor the result; and encoding a decoded word writes the ignored bits as zero and keeps
every other bit. -/
def Obligations.UnusedPortsAreIgnored : Prop :=
  (∀ (W : Width) (q q' : Ports W.bits),
    decodePorts W q = decodePorts W q' ↔
      q.op = q'.op ∧ (q.op = 0b00#2 → q.polyIn = q'.polyIn) ∧ (q.op = 0b10#2 → q.dataIn = q'.dataIn)) ∧
  (∀ (W : Width) (x : BitVec (W.bits + 10)),
    (encode (decode W x)).toNat = x.toNat &&& W.usedMask (decode W x).op)

/-- Every command survives encoding and decoding, as a word, as port values, and as a table word. -/
def Obligations.EveryCommandDecodesFromItsEncoding : Prop :=
  ∀ i : Instr, i.wf = true →
    decode i.width (encode i) = i ∧ decodePorts i.width (encodePorts i) = i ∧
    decodeTableWord i.width.wordBits (encode i).toNat = some i

/-- Words of 95_test_vectors.md section 2.10, one or more of each engine and of each operation, ignored bits set in some. -/
def Obligations.ListedWordsDecodeToTheirCommands : Prop :=
  decode .w8 0x00031#18 = .create8 0x31#8 ∧ decode .w8 0x1FFFF#18 = .default8 ∧
  decode .w16 0x2680000#26 = .update16 0x68#8 ∧ decode .w16 0x05A1021#26 = .create16 0x1021#16 ∧
  decode .w32 0x268FFFFFFFF#42 = .update32 0x68#8 ∧ decode .w32 0x30000000000#42 = .finalize32 ∧
  decode .w64 0x000000000000000001B#74 = .create64 0x1B#64 ∧ decode .w64 0x3FFFFFFFFFFFFFFFFFF#74 = .finalize64 ∧
  decode .w128 0x10000000000000000000000000000000000#138 = .default128 ∧
  decode .w128 0x26800000000000000000000000000000000#138 = .update128 0x68#8

/-! ### The four commands at the five widths -/

/-- R90, R141, R151, R161, R171, R181: CREATE.W in every state: the polynomial loaded, the register all-ones, no response,
every other engine and the pending inputs as they were. -/
def Obligations.CreateLoadsPolynomialAndAllOnes : Prop :=
  CreateRule .w8 .create8 (fun s e => { s with crc8 := e }) 0xFF#8 0x30000 0x00000 0x00031 0x31#8 ∧
  CreateRule .w16 .create16 (fun s e => { s with crc16 := e }) 0xFFFF#16 0x3000000 0x0000000 0x0001021 0x1021#16 ∧
  CreateRule .w32 .create32 (fun s e => { s with crc32 := e }) 0xFFFFFFFF#32 0x30000000000 0x00000000000
    0x0001EDC6F41 0x1EDC6F41#32 ∧
  CreateRule .w64 .create64 (fun s e => { s with crc64 := e }) 0xFFFFFFFFFFFFFFFF#64 0x3000000000000000000
    0x0000000000000000000 0x000000000000000001B 0x000000000000001B#64 ∧
  CreateRule .w128 .create128 (fun s e => { s with crc128 := e }) 0xFFFFFFFFFFFFFFFFFFFFFFFFFFFFFFFF#128
    0x30000000000000000000000000000000000 0x00000000000000000000000000000000000
    0x00000000000000000000000000000000087 0x00000000000000000000000000000087#128

/-- R91, R142, R152, R162, R172, R182: DEFAULT.W in every state, with the default polynomial of R24 in hexadecimal. -/
def Obligations.DefaultLoadsDefaultPolynomialAndAllOnes : Prop :=
  DefaultRule .w8 .default8 .create8 (fun s e => { s with crc8 := e }) 0xFF#8 0x07#8 0x30000 0x10000 ∧
  DefaultRule .w16 .default16 .create16 (fun s e => { s with crc16 := e }) 0xFFFF#16 0x8005#16 0x3000000 0x1000000 ∧
  DefaultRule .w32 .default32 .create32 (fun s e => { s with crc32 := e }) 0xFFFFFFFF#32 0x04C11DB7#32
    0x30000000000 0x10000000000 ∧
  DefaultRule .w64 .default64 .create64 (fun s e => { s with crc64 := e }) 0xFFFFFFFFFFFFFFFF#64
    0x42F0E1EBA9EA3693#64 0x3000000000000000000 0x1000000000000000000 ∧
  DefaultRule .w128 .default128 .create128 (fun s e => { s with crc128 := e }) 0xFFFFFFFFFFFFFFFFFFFFFFFFFFFFFFFF#128
    0x0E3C3D5A7E9F7D4E1F3F0FBAB65C7891#128 0x30000000000000000000000000000000000
    0x10000000000000000000000000000000000

/-- R143, R153, R163, R173, R183: UPDATE.W in every state, by the pseudocode of each rule with its literal mask and shift. -/
def Obligations.UpdateFoldsOneByte : Prop :=
  UpdateRule .w8 .update8 State.crc8 (fun s e => { s with crc8 := e }) 0 0x80#8 0x30000 0x20000 0x26800
    0xFF#8 0x07#8 [0x97#8, 0x29#8, 0x52#8, 0xA4#8, 0x4F#8, 0x9E#8, 0x3B#8, 0x76#8, 0xEC#8] 0xB6#8 ∧
  UpdateRule .w16 .update16 State.crc16 (fun s e => { s with crc16 := e }) 8 0x8000#16 0x3000000 0x2000000 0x2680000
    0xFFFF#16 0x8005#16
    [0x97FF#16, 0xAFFB#16, 0xDFF3#16, 0x3FE3#16, 0x7FC6#16, 0xFF8C#16, 0x7F1D#16, 0xFE3A#16, 0x7C71#16] 0xF155#16 ∧
  UpdateRule .w32 .update32 State.crc32 (fun s e => { s with crc32 := e }) 24 0x80000000#32 0x30000000000 0x20000000000
    0x26800000000 0xFFFFFFFF#32 0x04C11DB7#32
    [0x97FFFFFF#32, 0x2B3EE249#32, 0x567DC492#32, 0xACFB8924#32, 0x5D360FFF#32, 0xBA6C1FFE#32, 0x7019224B#32,
     0xE0324496#32, 0xC4A5949B#32] 0x507AD0B9#32 ∧
  UpdateRule .w64 .update64 State.crc64 (fun s e => { s with crc64 := e }) 56 0x8000000000000000#64
    0x3000000000000000000 0x2000000000000000000 0x2680000000000000000 0xFFFFFFFFFFFFFFFF#64 0x42F0E1EBA9EA3693#64
    [0x97FFFFFFFFFFFFFF#64, 0x6D0F1E145615C96D#64, 0xDA1E3C28AC2B92DA#64, 0xF6CC99BAF1BD1327#64, 0xAF69D29E4A9010DD#64,
     0x1C2344D73CCA1729#64, 0x384689AE79942E52#64, 0x708D135CF3285CA4#64, 0xE11A26B9E650B948#64] 0xA5EF3A6323C9D012#64 ∧
  UpdateRule .w128 .update128 State.crc128 (fun s e => { s with crc128 := e }) 120
    0x80000000000000000000000000000000#128 0x30000000000000000000000000000000000 0x20000000000000000000000000000000000
    0x26800000000000000000000000000000000 0xFFFFFFFFFFFFFFFFFFFFFFFFFFFFFFFF#128 0x0E3C3D5A7E9F7D4E1F3F0FBAB65C7891#128
    [0x97FFFFFFFFFFFFFFFFFFFFFFFFFFFFFF#128, 0x21C3C2A5816082B1E0C0F04549A3876F#128,
     0x4387854B02C10563C181E08A93470EDE#128, 0x870F0A9605820AC78303C115268E1DBC#128,
     0x00222876759B68C119388D90FB4043E9#128, 0x004450ECEB36D18232711B21F68087D2#128,
     0x0088A1D9D66DA30464E23643ED010FA4#128, 0x011143B3ACDB4608C9C46C87DA021F48#128,
     0x0222876759B68C119388D90FB4043E90#128] 0x5CC352BA465E63A1C338271F37823CB5#128

/-- R94, R144, R154, R164, R174, R184: FINALIZE.W in every state: the complement of the register on `crc_out`, registers,
other engines and pending inputs unchanged. -/
def Obligations.FinalizeReturnsTheComplement : Prop :=
  FinalizeRule .w8 .finalize8 State.crc8 (fun s e => { s with crc8 := e }) 0xFF#8 0x30000 0x30000 0x6B#8 0x94#8 ∧
  FinalizeRule .w16 .finalize16 State.crc16 (fun s e => { s with crc16 := e }) 0xFFFF#16 0x3000000 0x3000000
    0x37EB#16 0xC814#16 ∧
  FinalizeRule .w32 .finalize32 State.crc32 (fun s e => { s with crc32 := e }) 0xFFFFFFFF#32 0x30000000000 0x30000000000
    0xBB08EC87#32 0x44F71378#32 ∧
  FinalizeRule .w64 .finalize64 State.crc64 (fun s e => { s with crc64 := e }) 0xFFFFFFFFFFFFFFFF#64
    0x3000000000000000000 0x3000000000000000000 0x3D78FDFCDE6BC462#64 0xC287020321943B9D#64 ∧
  FinalizeRule .w128 .finalize128 State.crc128 (fun s e => { s with crc128 := e }) 0xFFFFFFFFFFFFFFFFFFFFFFFFFFFFFFFF#128
    0x30000000000000000000000000000000000 0x30000000000000000000000000000000000
    0xE4FFB56E3810E6ECB18863F53CDF5273#128 0x1B004A91C7EF19134E779C0AC320AD8C#128

/-- From R95 and R201: every command completes in every state. -/
def Obligations.EveryCommandCompletes : Prop :=
  ∀ (i : Instr) (s : State), ∃ t : State, exec i s = .next t

/-- R30: a command writes its own engine only, and what it leaves there is a function of that engine's REG_W and POLY_W. -/
def Obligations.EnginesShareNoState : Prop :=
  ∀ (i : Instr) (s s' : State),
    (s.engine i.width).reg = (s'.engine i.width).reg → (s.engine i.width).poly = (s'.engine i.width).poly →
    ∃ t t' : State, exec i s = .next t ∧ exec i s' = .next t' ∧ t.engine i.width = t'.engine i.width ∧
      (∀ W : Width, W ≠ i.width → t.engine W = s.engine W) ∧ t.pending = s.pending

/-- R49: FINALIZE has no side effect and its result repeats, any number of times; CREATE and DEFAULT are idempotent; UPDATE issued twice folds
the byte twice and is not idempotent. -/
def Obligations.IdempotencyOfTheCommands : Prop :=
  (∀ (W : Width) (s : State), ∃ t v, exec (Instr.finalizeOf W) s = .next t ∧ SameRegisters s t ∧
    ∀ n : Nat, responses W (List.replicate n (Instr.finalizeOf W)) s = List.replicate n v) ∧
  (∀ (W : Width) (p : BitVec W.bits) (s : State), ∃ t,
    execAll [Instr.createOf W p, Instr.createOf W p] s = .next t ∧ exec (Instr.createOf W p) s = .next t) ∧
  (∀ (W : Width) (s : State), ∃ t,
    execAll [Instr.defaultOf W, Instr.defaultOf W] s = .next t ∧ exec (Instr.defaultOf W) s = .next t) ∧
  (∀ (W : Width) (b : Byte) (s : State), ∃ t, execAll [Instr.updateOf W b, Instr.updateOf W b] s = .next t ∧
    (t.engine W).reg = updateMessage (s.engine W).reg (s.engine W).poly [b, b]) ∧
  (∀ W : Width, ∃ (s : State) (b : Byte) (t u : State),
    exec (Instr.updateOf W b) s = .next t ∧ exec (Instr.updateOf W b) t = .next u ∧
    (u.engine W).reg ≠ (t.engine W).reg)

/-! ### The fold and its equivalent forms -/

/-- R25: the all-ones value, the top-bit mask and the alignment shift of each width. -/
def Obligations.WidthConstantsAsTabulated : Prop :=
  (Config.ones 8 = 0xFF#8 ∧ Config.msbMask 8 = 0x80#8 ∧ Config.alignShift 8 = 0) ∧
  (Config.ones 16 = 0xFFFF#16 ∧ Config.msbMask 16 = 0x8000#16 ∧ Config.alignShift 16 = 8) ∧
  (Config.ones 32 = 0xFFFFFFFF#32 ∧ Config.msbMask 32 = 0x80000000#32 ∧ Config.alignShift 32 = 24) ∧
  (Config.ones 64 = 0xFFFFFFFFFFFFFFFF#64 ∧ Config.msbMask 64 = 0x8000000000000000#64 ∧ Config.alignShift 64 = 56) ∧
  (Config.ones 128 = 0xFFFFFFFFFFFFFFFFFFFFFFFFFFFFFFFF#128 ∧
    Config.msbMask 128 = 0x80000000000000000000000000000000#128 ∧ Config.alignShift 128 = 120) ∧
  (∀ W : Nat, Config.initValue W = Config.ones W ∧ Config.xorOut W = Config.ones W)

/-- R110: the byte enters the top eight bits of the register and nothing else of it changes. -/
def Obligations.AlignChangesTheTopByteOnly : Prop :=
  ∀ (W : Nat) (r : BitVec W) (b : Byte), 8 ≤ W →
    align r b = r ^^^ ((b.setWidth W) <<< (W - 8)) ∧
    (align r b).extractLsb' (W - 8) 8 = r.extractLsb' (W - 8) 8 ^^^ b ∧
    (align r b).extractLsb' 0 (W - 8) = r.extractLsb' 0 (W - 8)

/-- R111: the bit step by the mask test on the old register, with the rule's corner cases. -/
def Obligations.BitStepShiftsAndXorsOnTopBit : Prop :=
  ∀ (W : Nat) (r p : BitVec W), 0 < W →
    (r &&& (1#W <<< (W - 1)) ≠ 0#W → bitStep r p = (r <<< 1) ^^^ p) ∧
    (r &&& (1#W <<< (W - 1)) = 0#W → bitStep r p = r <<< 1) ∧
    bitStep 0#W p = 0#W ∧ bitStep (1#W <<< (W - 1)) p = p ∧ bitStep r 0#W = r <<< 1

/-- R113: the shifts truncate: the numbers a bit step and the alignment compute, exactly. -/
def Obligations.ShiftsTruncateToTheWidth : Prop :=
  (∀ (W : Nat) (r p : BitVec W), 0 < W → (bitStep r p).toNat =
    if 2 ^ (W - 1) ≤ r.toNat then (r.toNat * 2 ^ 1 % 2 ^ W) ^^^ p.toNat else r.toNat * 2 ^ 1 % 2 ^ W) ∧
  (∀ (W : Nat) (r : BitVec W) (b : Byte), 8 ≤ W →
    (align r b).toNat = r.toNat ^^^ (b.toNat * 2 ^ (W - 8) % 2 ^ W))

/-- R112: align once, then exactly eight bit steps with the same polynomial; the result is the new REG_W of UPDATE.W. -/
def Obligations.FoldIsAlignThenEightBitSteps : Prop :=
  (∀ (W : Nat) (r p : BitVec W) (b : Byte),
    fold r p b =
      (let t0 := align r b
       let t1 := bitStep t0 p; let t2 := bitStep t1 p; let t3 := bitStep t2 p; let t4 := bitStep t3 p
       let t5 := bitStep t4 p; let t6 := bitStep t5 p; let t7 := bitStep t6 p; let t8 := bitStep t7 p
       t8)) ∧
  (∀ (W : Width) (b : Byte) (s : State), ∃ t, exec (Instr.updateOf W b) s = .next t ∧
    (t.engine W).reg = fold (s.engine W).reg (s.engine W).poly b)

/-- The bit equations of the shift register, which the spec derives from R111 (41_fold_algorithm.md section 2, R118). -/
def Obligations.BitStepIsTheShiftRegister : Prop :=
  ∀ (W : Nat) (r p : BitVec W), 0 < W →
    (bitStep r p).getLsbD 0 = (r.getLsbD (W - 1) && p.getLsbD 0) ∧
    (∀ i : Nat, 1 ≤ i → i ≤ W - 1 →
      (bitStep r p).getLsbD i = (r.getLsbD (i - 1) ^^ (r.getLsbD (W - 1) && p.getLsbD i)))

/-- The bit step is multiplication by x modulo the generator: the spec's own inference from R111 (R119). -/
def Obligations.BitStepIsTimesXModuloGenerator : Prop :=
  ∀ (W : Nat) (r p : BitVec W), 0 < W →
    asPoly (bitStep r p) = (asPoly r * Polynomial.X) %ₘ generator p

/-- The byte fold, and the fold of a whole message, as a remainder modulo the generator: the spec's own inference (R120). -/
def Obligations.FoldIsPolynomialDivision : Prop :=
  (∀ (W : Nat) (r p : BitVec W) (b : Byte), 8 ≤ W →
    asPoly (fold r p b) = (asPoly r * Polynomial.X ^ 8 + asPoly b * Polynomial.X ^ W) %ₘ generator p) ∧
  (∀ (W : Nat) (r p : BitVec W) (d : List Byte), 8 ≤ W →
    asPoly (updateMessage r p d) =
      (asPoly r * Polynomial.X ^ (8 * d.length) + messagePoly d * Polynomial.X ^ W) %ₘ generator p)

/-- For a fixed polynomial the step and the fold are linear over GF(2); neither is linear in the polynomial: the spec's own
inference (R121). -/
def Obligations.StepAndFoldAreLinear : Prop :=
  (∀ (W : Nat) (a b p : BitVec W), bitStep (a ^^^ b) p = bitStep a p ^^^ bitStep b p) ∧
  (∀ (W : Nat) (a b p : BitVec W) (A B : Byte), fold (a ^^^ b) p (A ^^^ B) = fold a p A ^^^ fold b p B) ∧
  (∀ (W : Nat) (p : BitVec W), fold 0#W p 0#8 = 0#W) ∧
  (∀ (W : Nat) (r p : BitVec W) (B : Byte), fold r p B = fold r p 0#8 ^^^ fold 0#W p B) ∧
  (∃ (r p q : BitVec 8), bitStep r (p ^^^ q) ≠ bitStep r p ^^^ bitStep r q) ∧
  (∃ (r p q : BitVec 8) (B : Byte), fold r (p ^^^ q) B ≠ fold r p B ^^^ fold r q B)

/-- The byte-parallel XOR tree computes the fold, at every width of at least eight bits: the spec's own inference (R122). -/
def Obligations.XorTreeComputesTheFold : Prop :=
  ∀ (W : Nat) (r p : BitVec W) (b : Byte), 8 ≤ W → xorTreeFold r p b = fold r p b

/-- The bit-serial realisation that R230 admits, built from the spec's derived bit equations (R118): eight clocks after it
takes a byte its shift register holds the fold, its taps are unchanged, and further clocks change nothing. The record, its
count of steps left, and that a clock with none left holds, are the model's choice (log entry 9). -/
def Obligations.EightClocksOfTheShiftRegisterComputeTheFold : Prop :=
  ∀ (W : Nat) (r p : BitVec W) (b : Byte) (n : Nat),
    SerialEngine.clocks (8 + n) (SerialEngine.load r p b) = { shift := fold r p b, taps := p, left := 0 }

/-- The low bits only move up; the byte and the polynomial contribute a function of eight bits: the spec's own inference
(R123). -/
def Obligations.FoldSplitsAtTheTopByte : Prop :=
  (∀ (W : Nat) (r p : BitVec W) (b : Byte), 8 < W →
    fold r p b = (r <<< 8) ^^^ fold 0#W p (r.extractLsb' (W - 8) 8 ^^^ b)) ∧
  (∀ (r p : BitVec 8) (b : Byte), fold r p b = fold 0#8 p (r ^^^ b))

/-- With the polynomial zero the data vanish and the register is shifted out: the spec's own inference (R124). -/
def Obligations.PolynomialZeroShiftsTheRegisterOut : Prop :=
  (∀ (W : Nat) (r : BitVec W) (b : Byte), 8 ≤ W → fold r 0#W b = align r b <<< 8) ∧
  (∀ (W : Nat) (r : BitVec W) (b : Byte), 8 < W → fold r 0#W b = r <<< 8) ∧
  (∀ (r : BitVec 8) (b : Byte), fold r 0#8 b = 0#8) ∧
  (∀ (W : Nat) (d : List Byte), 8 ≤ W →
    updateMessage (Config.initValue W) 0#W d = Config.ones W <<< (8 * d.length) ∧
    (W ≤ 8 * d.length → updateMessage (Config.initValue W) 0#W d = 0#W))

/-- The tables of the polynomial-zero engine, by number of bytes, for any bytes, and UPDATE of 0xFF on a fresh engine, for any
polynomial: the spec's own inferences (R145, R155, R165, R175, R185). -/
def Obligations.PolynomialZeroTables : Prop :=
  PolynomialZeroTable .w8 [(0xFF#8, 0x00#8), (0x00#8, 0xFF#8), (0x00#8, 0xFF#8)] ∧
  PolynomialZeroTable .w16
    [(0xFFFF#16, 0x0000#16), (0xFF00#16, 0x00FF#16), (0x0000#16, 0xFFFF#16), (0x0000#16, 0xFFFF#16)] ∧
  PolynomialZeroTable .w32
    [(0xFFFFFFFF#32, 0x00000000#32), (0xFFFFFF00#32, 0x000000FF#32), (0xFFFF0000#32, 0x0000FFFF#32),
     (0xFF000000#32, 0x00FFFFFF#32), (0x00000000#32, 0xFFFFFFFF#32), (0x00000000#32, 0xFFFFFFFF#32)] ∧
  PolynomialZeroTable .w64
    [(0xFFFFFFFFFFFFFFFF#64, 0x0000000000000000#64), (0xFFFFFFFFFFFFFF00#64, 0x00000000000000FF#64),
     (0xFFFFFFFFFFFF0000#64, 0x000000000000FFFF#64), (0xFFFFFFFFFF000000#64, 0x0000000000FFFFFF#64),
     (0xFFFFFFFF00000000#64, 0x00000000FFFFFFFF#64), (0xFFFFFF0000000000#64, 0x000000FFFFFFFFFF#64),
     (0xFFFF000000000000#64, 0x0000FFFFFFFFFFFF#64), (0xFF00000000000000#64, 0x00FFFFFFFFFFFFFF#64),
     (0x0000000000000000#64, 0xFFFFFFFFFFFFFFFF#64), (0x0000000000000000#64, 0xFFFFFFFFFFFFFFFF#64)] ∧
  PolynomialZeroTable .w128
    [(0xFFFFFFFFFFFFFFFFFFFFFFFFFFFFFFFF#128, 0x00000000000000000000000000000000#128),
     (0xFFFFFFFFFFFFFFFFFFFFFFFFFFFFFF00#128, 0x000000000000000000000000000000FF#128),
     (0xFFFFFFFFFFFFFFFFFFFFFFFFFFFF0000#128, 0x0000000000000000000000000000FFFF#128),
     (0xFFFFFFFFFFFFFFFFFFFFFFFFFF000000#128, 0x00000000000000000000000000FFFFFF#128),
     (0xFFFFFFFFFFFFFFFFFFFFFFFF00000000#128, 0x000000000000000000000000FFFFFFFF#128),
     (0xFFFFFFFFFFFFFFFFFFFFFF0000000000#128, 0x0000000000000000000000FFFFFFFFFF#128),
     (0xFFFFFFFFFFFFFFFFFFFF000000000000#128, 0x00000000000000000000FFFFFFFFFFFF#128),
     (0xFFFFFFFFFFFFFFFFFF00000000000000#128, 0x000000000000000000FFFFFFFFFFFFFF#128),
     (0xFFFFFFFFFFFFFFFF0000000000000000#128, 0x0000000000000000FFFFFFFFFFFFFFFF#128),
     (0xFFFFFFFFFFFFFF000000000000000000#128, 0x00000000000000FFFFFFFFFFFFFFFFFF#128),
     (0xFFFFFFFFFFFF00000000000000000000#128, 0x000000000000FFFFFFFFFFFFFFFFFFFF#128),
     (0xFFFFFFFFFF0000000000000000000000#128, 0x0000000000FFFFFFFFFFFFFFFFFFFFFF#128),
     (0xFFFFFFFF000000000000000000000000#128, 0x00000000FFFFFFFFFFFFFFFFFFFFFFFF#128),
     (0xFFFFFF00000000000000000000000000#128, 0x000000FFFFFFFFFFFFFFFFFFFFFFFFFF#128),
     (0xFFFF0000000000000000000000000000#128, 0x0000FFFFFFFFFFFFFFFFFFFFFFFFFFFF#128),
     (0xFF000000000000000000000000000000#128, 0x00FFFFFFFFFFFFFFFFFFFFFFFFFFFFFF#128),
     (0x00000000000000000000000000000000#128, 0xFFFFFFFFFFFFFFFFFFFFFFFFFFFFFFFF#128),
     (0x00000000000000000000000000000000#128, 0xFFFFFFFFFFFFFFFFFFFFFFFFFFFFFFFF#128)] ∧
  (∀ (W : Width) (b : Byte) (s : State), (s.engine W).poly = 0#W.bits →
    ∃ t, exec (Instr.updateOf W b) s = .next t ∧ (t.engine W).reg = (s.engine W).reg <<< 8) ∧
  (∀ (W : Width) (s : State) (d : List Byte), W.bits ≤ 8 * d.length →
    ∃ t, execAll (Instr.createOf W 0#W.bits :: d.map (Instr.updateOf W) ++ [Instr.finalizeOf W]) s = .next t ∧
      t.engine W = { reg := 0#W.bits, poly := 0#W.bits, crcOut := some (Config.ones W.bits) }) ∧
  (∀ (W : Width) (s : State), (s.engine W).reg = Config.initValue W.bits →
    ∃ t, exec (Instr.updateOf W 0xFF#8) s = .next t ∧ (t.engine W).reg = Config.ones W.bits <<< 8)

/-- Zero stays zero under zero bytes, and leading zero bytes of a message are not invisible: the spec's own inference
(R125). -/
def Obligations.ZeroStateAndLeadingZeroBytes : Prop :=
  (∀ (W : Nat) (p : BitVec W), fold 0#W p 0x00#8 = 0#W) ∧
  (∀ W : Width, fold (Config.ones W.bits) (Config.defaultPoly W) 0x00#8 ≠ Config.ones W.bits)

/-- A byte equal to the register's top byte causes no feedback, whatever the polynomial: the spec's own inference (R126). -/
def Obligations.ByteThatCancelsTheTopOfTheRegister : Prop :=
  (∀ (W : Nat) (r p : BitVec W) (b : Byte), 8 ≤ W → b = r.extractLsb' (W - 8) 8 → fold r p b = r <<< 8) ∧
  (∀ (W : Nat) (p : BitVec W), 8 ≤ W → fold (Config.ones W) p 0xFF#8 = Config.ones W <<< 8)

/-- The XOR-tree tables of the default polynomials, and the bit-by-bit equations written out for widths 8 and 16: the spec's
own inferences (R146, R156, R166, R176, R186). -/
def Obligations.DefaultPolynomialXorTrees : Prop :=
  XorTreeTable 0x07#8 [0x07#8, 0x0E#8, 0x1C#8, 0x38#8, 0x70#8, 0xE0#8, 0xC7#8, 0x89#8] ∧
  (∀ t : Byte, let g := fold 0#8 0x07#8 t
    g.getLsbD 7 = (t.getLsbD 7 ^^ t.getLsbD 6 ^^ t.getLsbD 5) ∧
    g.getLsbD 6 = (t.getLsbD 6 ^^ t.getLsbD 5 ^^ t.getLsbD 4) ∧
    g.getLsbD 5 = (t.getLsbD 5 ^^ t.getLsbD 4 ^^ t.getLsbD 3) ∧
    g.getLsbD 4 = (t.getLsbD 4 ^^ t.getLsbD 3 ^^ t.getLsbD 2) ∧
    g.getLsbD 3 = (t.getLsbD 7 ^^ t.getLsbD 3 ^^ t.getLsbD 2 ^^ t.getLsbD 1) ∧
    g.getLsbD 2 = (t.getLsbD 6 ^^ t.getLsbD 2 ^^ t.getLsbD 1 ^^ t.getLsbD 0) ∧
    g.getLsbD 1 = (t.getLsbD 6 ^^ t.getLsbD 1 ^^ t.getLsbD 0) ∧
    g.getLsbD 0 = (t.getLsbD 7 ^^ t.getLsbD 6 ^^ t.getLsbD 0)) ∧
  XorTreeTable 0x8005#16
    [0x8005#16, 0x800F#16, 0x801B#16, 0x8033#16, 0x8063#16, 0x80C3#16, 0x8183#16, 0x8303#16] ∧
  (∀ t : Byte, let g := fold 0#16 0x8005#16 t
    let parity := t.getLsbD 7 ^^ t.getLsbD 6 ^^ t.getLsbD 5 ^^ t.getLsbD 4 ^^ t.getLsbD 3 ^^ t.getLsbD 2 ^^ t.getLsbD 1
    g.getLsbD 15 = (parity ^^ t.getLsbD 0) ∧
    g.getLsbD 14 = false ∧ g.getLsbD 13 = false ∧ g.getLsbD 12 = false ∧ g.getLsbD 11 = false ∧ g.getLsbD 10 = false ∧
    g.getLsbD 9 = t.getLsbD 7 ∧ g.getLsbD 8 = (t.getLsbD 7 ^^ t.getLsbD 6) ∧
    g.getLsbD 7 = (t.getLsbD 6 ^^ t.getLsbD 5) ∧ g.getLsbD 6 = (t.getLsbD 5 ^^ t.getLsbD 4) ∧
    g.getLsbD 5 = (t.getLsbD 4 ^^ t.getLsbD 3) ∧ g.getLsbD 4 = (t.getLsbD 3 ^^ t.getLsbD 2) ∧
    g.getLsbD 3 = (t.getLsbD 2 ^^ t.getLsbD 1) ∧ g.getLsbD 2 = (t.getLsbD 1 ^^ t.getLsbD 0) ∧
    g.getLsbD 1 = parity ∧ g.getLsbD 0 = (parity ^^ t.getLsbD 0)) ∧
  XorTreeTable 0x04C11DB7#32
    [0x04C11DB7#32, 0x09823B6E#32, 0x130476DC#32, 0x2608EDB8#32, 0x4C11DB70#32, 0x9823B6E0#32, 0x34867077#32,
     0x690CE0EE#32] ∧
  XorTreeTable 0x42F0E1EBA9EA3693#64
    [0x42F0E1EBA9EA3693#64, 0x85E1C3D753D46D26#64, 0x493366450E42ECDF#64, 0x9266CC8A1C85D9BE#64,
     0x663D78FF90E185EF#64, 0xCC7AF1FF21C30BDE#64, 0xDA050215EA6C212F#64, 0xF6FAE5C07D3274CD#64] ∧
  XorTreeTable 0x0E3C3D5A7E9F7D4E1F3F0FBAB65C7891#128
    [0x0E3C3D5A7E9F7D4E1F3F0FBAB65C7891#128, 0x1C787AB4FD3EFA9C3E7E1F756CB8F122#128,
     0x38F0F569FA7DF5387CFC3EEAD971E244#128, 0x71E1EAD3F4FBEA70F9F87DD5B2E3C488#128,
     0xE3C3D5A7E9F7D4E1F3F0FBAB65C78910#128, 0xC9BB9615AD70D48DF8DEF8EC7DD36AB1#128,
     0x9D4B1171247ED455EE82FE624DFAADF3#128, 0x34AA1FB83662D5E5C23AF37E2DA92377#128]

/-! ### The contract's laws -/

/-- R93: `update` over a byte sequence is one UPDATE.W per byte in order; the accumulator after it is the rule's own
recursive function of the one before; the empty sequence changes nothing. -/
def Obligations.UpdateOfASequenceFoldsItInOrder : Prop :=
  (∀ (W : Width) (d : List Byte), updateCommands W d = d.map (Instr.updateOf W)) ∧
  (∀ (W : Nat) (r p : BitVec W), updateMessage r p [] = r ∧
    ∀ (b : Byte) (d : List Byte), updateMessage r p (b :: d) = updateMessage (fold r p b) p d) ∧
  ∀ (W : Width) (d : List Byte) (s : State),
    ∃ t, execAll (updateCommands W d) s = .next t ∧
      (t.engine W).reg = updateMessage (s.engine W).reg (s.engine W).poly d ∧
      (t.engine W).poly = (s.engine W).poly ∧ (∀ U : Width, U ≠ W → t.engine U = s.engine U) ∧
      t.pending = s.pending ∧ (d = [] → t = s)

/-- R96: streaming equivalence, from every register and not only a fresh one, and on the block. -/
def Obligations.StreamingEquivalence : Prop :=
  (∀ (W : Nat) (r p : BitVec W) (d1 d2 : List Byte),
    updateMessage (updateMessage r p d1) p d2 = updateMessage r p (d1 ++ d2)) ∧
  (∀ (W : Width) (d1 d2 : List Byte) (s : State), ∃ t u,
    execAll (updateCommands W d1) s = .next t ∧ execAll (updateCommands W d2) t = .next u ∧
    execAll (updateCommands W (d1 ++ d2)) s = .next u ∧
    (u.engine W).reg = updateMessage (s.engine W).reg (s.engine W).poly (d1 ++ d2))

/-- R97: FINALIZE.W returns the same value twice in a row, and any number of them can be inserted anywhere in a command
sequence, or removed from it, without changing a register or any other result of any engine. -/
def Obligations.FinalizeCanBeInsertedAnywhere : Prop :=
  (∀ (W : Width) (s : State), ∃ v, responses W [Instr.finalizeOf W, Instr.finalizeOf W] s = [v, v]) ∧
  (∀ (V : Width) (n : Nat) (is js : List Instr) (s : State), ∃ t u,
    execAll (is ++ List.replicate n (Instr.finalizeOf V) ++ js) s = .next t ∧ execAll (is ++ js) s = .next u ∧
    SameRegisters t u ∧
    ∀ W : Width, ∃ after v, responses W (is ++ js) s = responses W is s ++ after ∧
      responses W (is ++ List.replicate n (Instr.finalizeOf V) ++ js) s =
        responses W is s ++ (if V = W then List.replicate n v else []) ++ after)

/-- R98: the empty message gives zero: after CREATE.W with any polynomial, after DEFAULT.W, and straight after reset. -/
def Obligations.EmptyMessageGivesZero : Prop :=
  ∀ (W : Width) (p : BitVec W.bits) (s : State),
    responses W [Instr.createOf W p, Instr.finalizeOf W] s = [0#W.bits] ∧
    responses W [Instr.defaultOf W, Instr.finalizeOf W] s = [0#W.bits] ∧
    responses W [Instr.finalizeOf W] State.reset = [0#W.bits]

/-- R99: FINALIZE.W ends nothing: bytes after it extend the same message, and a second FINALIZE.W answers for the
concatenation. -/
def Obligations.MessageContinuesAfterFinalize : Prop :=
  ∀ (W : Width) (d1 d2 : List Byte) (s : State),
    let r := (s.engine W).reg
    let p := (s.engine W).poly
    responses W (updateCommands W d1 ++ Instr.finalizeOf W :: updateCommands W d2 ++ [Instr.finalizeOf W]) s =
      [updateMessage r p d1 ^^^ Config.ones W.bits, updateMessage r p (d1 ++ d2) ^^^ Config.ones W.bits]

/-- The checksum of a message (the spec's own inference, R100), on the running block: from any state whose owner presents
CREATE.W p (or DEFAULT.W), UPDATE.W of each byte, FINALIZE.W, the last response is crc_W(p, d) (of the default polynomial),
the engine holds the message's register and polynomial, and every other engine keeps its registers. The model's choices:
the inputs are in `pending` (log entry 2); the other engines give no response at these instants (log entry 1). -/
def Obligations.ChecksumOfAMessage : Prop :=
  (∀ (W : Width) (p : BitVec W.bits) (d : List Byte) (rest : List Input) (s : State),
    s.pending = (Instr.createOf W p :: updateCommands W d ++ [Instr.finalizeOf W]).map Instr.present ++ rest →
    ∃ t : State, Host.Core.run Sys2Proof.core (d.length + 2) s = .next t ∧
      t.engine W = { reg := updateMessage (Config.ones W.bits) p d, poly := p, crcOut := some (crc p d) } ∧
      (∀ U : Width, U ≠ W → t.engine U = (s.engine U).quiet) ∧ t.pending = rest) ∧
  (∀ (W : Width) (d : List Byte) (rest : List Input) (s : State),
    s.pending = (Instr.defaultOf W :: updateCommands W d ++ [Instr.finalizeOf W]).map Instr.present ++ rest →
    ∃ t : State, Host.Core.run Sys2Proof.core (d.length + 2) s = .next t ∧
      t.engine W = { reg := updateMessage (Config.ones W.bits) (Config.defaultPoly W) d, poly := Config.defaultPoly W,
                     crcOut := some (crc (Config.defaultPoly W) d) } ∧
      (∀ U : Width, U ≠ W → t.engine U = (s.engine U).quiet) ∧ t.pending = rest)

/-- R101: at each width two nonzero polynomials give different results on the same nonempty input. -/
def Obligations.ChecksumDependsOnThePolynomial : Prop :=
  ∀ W : Width, ∃ (p q : BitVec W.bits) (d : List Byte),
    p ≠ 0#W.bits ∧ q ≠ 0#W.bits ∧ d ≠ [] ∧ crc p d ≠ crc q d

/-- R102: POLY_W keeps its value through every command sequence that has no CREATE.W and no DEFAULT.W. -/
def Obligations.PolynomialIsConstantWithinAnInstance : Prop :=
  ∀ (W : Width) (is : List Instr) (s : State),
    (∀ i ∈ is, i.width = W → i.op ≠ .create ∧ i.op ≠ .default) →
    ∃ t, execAll is s = .next t ∧ (t.engine W).poly = (s.engine W).poly

/-- R103: CREATE.W and DEFAULT.W are accepted in every state and begin the same new instance whatever was there; and
whatever the block is given at an instant, POLY_W cannot change without REG_W becoming all-ones. -/
def Obligations.PolynomialChangeRestartsTheMessage : Prop :=
  (∀ (W : Width) (p : BitVec W.bits) (s : State),
    (∃ t, exec (Instr.createOf W p) s = .next t ∧
      t.engine W = { reg := Config.ones W.bits, poly := p, crcOut := none }) ∧
    (∃ t, exec (Instr.defaultOf W) s = .next t ∧
      t.engine W = { reg := Config.ones W.bits, poly := Config.defaultPoly W, crcOut := none })) ∧
  (∀ (s t : State) (W : Width), step s = .next t →
    (t.engine W).poly ≠ (s.engine W).poly → (t.engine W).reg = Config.ones W.bits)

/-- The register and the FINALIZE.W result determine each other: the spec's own inference from R94 (R104). -/
def Obligations.ResultAndRegisterDetermineEachOther : Prop :=
  ∀ (W : Width) (s : State), ∃ t v, exec (Instr.finalizeOf W) s = .next t ∧ (t.engine W).crcOut = some v ∧
    v = (s.engine W).reg ^^^ Config.ones W.bits ∧ (s.engine W).reg = v ^^^ Config.ones W.bits

/-! ### The block and its inputs -/

/-- A step carries out exactly the command whose port values its owner presents, after taking it from the pending inputs and
clearing the responses of the instant before (the model's form of R60 and R66: log entries 1 and 2); and so for a table word.
That the length of a table word chooses the engine, W + 10 bits or that rounded up to whole bytes, is the model's choice (log
entry 6). -/
def Obligations.StepRunsThePresentedCommand : Prop :=
  (∀ (s : State) (W : Width) (q : Ports W.bits) (rest : List Input),
    s.pending = .commands (Instant.single W q) :: rest →
    step s = exec (decodePorts W q) ({ s with pending := rest } : State).quiet) ∧
  (∀ (s : State) (W : Width) (x : BitVec (W.bits + 10)),
    step (s.withFetchWord W.wordBits x.toNat) = exec (decode W x) s.quiet ∧
    step (s.withFetchWord ((W.wordBits + 7) / 8 * 8) x.toNat) = exec (decode W x) s.quiet)

/-- When no command is issued, at an instant without commands or because the owners have stopped, the engines hold their
state (R60, R223); no response is given (the model's choice, log entry 1). That owners who have stopped are an empty list on
which the block idles is the model's form too (log entry 2). -/
def Obligations.EnginesHoldWhenNoCommandIsIssued : Prop :=
  (∀ s : State, s.pending = [] → ∃ t, step s = .next t ∧ t.pending = [] ∧ ∀ W, t.engine W = (s.engine W).quiet) ∧
  (∀ (s : State) (rest : List Input), s.pending = .commands {} :: rest →
    ∃ t, step s = .next t ∧ t.pending = rest ∧ ∀ W, t.engine W = (s.engine W).quiet)

/-- From R200 and R214: no fault; a step answers a next state unless two or more commands are presented to one engine at the
same instant, and then, and only then, it is refused, naming such an engine. That the refusal takes the whole instant and
names a contended engine is the model's choice (log entry 10). -/
def Obligations.OnlySimultaneousCommandsAreRefused : Prop :=
  ∀ s : State,
    (∀ r, step s ≠ .fault r) ∧
    ((∃ t, step s = .next t) ↔
      ¬ ∃ (c : Instant) (rest : List Input) (W : Width), s.pending = .commands c :: rest ∧ 2 ≤ (c.port W).length) ∧
    (∀ (c : Instant) (rest : List Input), s.pending = .commands c :: rest → (∃ W, 2 ≤ (c.port W).length) →
      ∃ W, 2 ≤ (c.port W).length ∧ step s = .refused (.simultaneousCommands W))

/-- Commands to different engines commute (R51). -/
def Obligations.CommandsToDifferentEnginesCommute : Prop :=
  ∀ (i j : Instr) (s : State), i.width ≠ j.width →
    ∃ t, execAll [i, j] s = .next t ∧ execAll [j, i] s = .next t

/-- The five engines may run at the same time (R30, R51): at an instant with at most one command for each, every engine does
what its own command does alone, and an engine without a command holds its registers. That the instant is one step is the
model's inference (log entry 4); that an engine without a command then gives no response is its choice (log entry 1). -/
def Obligations.SimultaneousEnginesRunIndependently : Prop :=
  ∀ (s : State) (c : Instant) (rest : List Input), s.pending = .commands c :: rest → c.wf = true →
    ∃ t, step s = .next t ∧ t.pending = rest ∧
      ∀ W : Width,
        (c.port W = [] → t.engine W = (s.engine W).quiet) ∧
        (∀ q, c.port W = [q] → ∃ u, exec (decodePorts W q) s = .next u ∧ t.engine W = u.engine W)

/-- R51: in any interleaving of command sequences, each engine has the states and the results of its own sequence
alone. -/
def Obligations.EachEngineRunsAsIfAlone : Prop :=
  ∀ (W : Width) (is : List Instr) (s : State), ∃ t u,
    execAll is s = .next t ∧ execAll (is.filter fun i => i.width = W) s = .next u ∧
    t.engine W = u.engine W ∧ responses W is s = responses W (is.filter fun i => i.width = W) s

/-- Commands presented one per instant (`pending`, log entry 2) take effect in the order issued, each completing before the
next (R50). -/
def Obligations.PresentedCommandsRunInOrder : Prop :=
  ∀ (is : List Instr) (rest : List Input) (s : State), s.pending = is.map Instr.present ++ rest →
    ∃ t u : State, Host.Core.run Sys2Proof.core is.length s = .next t ∧ execAll is s = .next u ∧
      SameRegisters t u ∧ t.pending = rest

/-- POLY_W shows only through UPDATE.W (R31): a sequence without UPDATE.W gives the same responses of engine W whatever
polynomials the engines hold. -/
def Obligations.PolynomialShowsOnlyThroughUpdate : Prop :=
  ∀ (W : Width) (is : List Instr) (s s' : State), (s.engine W).reg = (s'.engine W).reg →
    (∀ i ∈ is, i.width = W → i.op ≠ .update) → responses W is s = responses W is s'

/-- CREATE.W erases the past (from R30, R50, R103): after it, what engine W answers depends on nothing that came before, in any
engine. -/
def Obligations.CreateErasesThePast : Prop :=
  ∀ (W : Width) (p : BitVec W.bits) (is : List Instr) (s s' : State),
    responses W (Instr.createOf W p :: is) s = responses W (Instr.createOf W p :: is) s'

/-- The pseudo-instructions' expansions (R72), and what the two that end in FINALIZE.W return, the checksum of the message
(the spec's own inference, R100). `expand` takes any operand and reduces a number, a character or a polynomial that is out of
range to the port's width; such a line is no line (log entry 8, the model's inference), and `assemble`, which gives a line's
expansion exactly when its operands are in range, refuses it. -/
def Obligations.PseudoInstructionsExpandAsListed : Prop :=
  (∀ (W : Width) (l : List Nat), expand (.update W (.numbers l)) = l.map fun n => Instr.updateOf W (BitVec.ofNat 8 n)) ∧
  (∀ (W : Width) (l : List Char),
    expand (.update W (.text l)) = l.map fun c => Instr.updateOf W (BitVec.ofNat 8 c.toNat)) ∧
  (∀ W : Width, expand (.update W (.numbers [])) = [] ∧ expand (.update W (.text [])) = []) ∧
  (∀ (W : Width) (bytes : AsmBytes), expand (.crc W bytes) =
    expand (.default W) ++ expand (.update W bytes) ++ expand (.finalize W)) ∧
  (∀ (W : Width) (poly : Nat) (bytes : AsmBytes), expand (.crcp W poly bytes) =
    expand (.create W poly) ++ expand (.update W bytes) ++ expand (.finalize W)) ∧
  (∀ (W : Width) (poly : Nat) (bytes : AsmBytes) (s : State),
    responses W (expand (.crc W bytes)) s = [crc (Config.defaultPoly W) (asmBytes bytes)] ∧
    responses W (expand (.crcp W poly bytes)) s = [crc (BitVec.ofNat W.bits poly) (asmBytes bytes)]) ∧
  (∀ l : AsmLine, (l.wf = true → assemble l = some (expand l)) ∧ (l.wf = false → assemble l = none))

/-! ### Reset and the whole machine -/

/-- R32: the reset value of each of the ten registers, and that reset is DEFAULT.W on all five engines: the five commands
make the reset state of any state (its pending inputs apart). -/
def Obligations.ResetValues : Prop :=
  State.reset.crc8.reg = 0xFF#8 ∧ State.reset.crc8.poly = 0x07#8 ∧
  State.reset.crc16.reg = 0xFFFF#16 ∧ State.reset.crc16.poly = 0x8005#16 ∧
  State.reset.crc32.reg = 0xFFFFFFFF#32 ∧ State.reset.crc32.poly = 0x04C11DB7#32 ∧
  State.reset.crc64.reg = 0xFFFFFFFFFFFFFFFF#64 ∧ State.reset.crc64.poly = 0x42F0E1EBA9EA3693#64 ∧
  State.reset.crc128.reg = 0xFFFFFFFFFFFFFFFFFFFFFFFFFFFFFFFF#128 ∧
  State.reset.crc128.poly = 0x0E3C3D5A7E9F7D4E1F3F0FBAB65C7891#128 ∧
  (∀ s : State, execAll [.default8, .default16, .default32, .default64, .default128] s =
    .next { State.reset with pending := s.pending })

/-- R220: the reset event, from every state, is DEFAULT.W on every engine and produces no result. -/
def Obligations.ResetEventIsDefaultOnEveryEngine : Prop :=
  ∀ (s : State) (rest : List Input), s.pending = .reset :: rest → ∃ t : State, step s = .next t ∧ t.pending = rest ∧
    execAll [.default8, .default16, .default32, .default64, .default128] { s with pending := rest } = .next t ∧
    (∀ W : Width, (t.engine W).reg = Config.ones W.bits ∧ (t.engine W).poly = Config.defaultPoly W ∧
      (t.engine W).crcOut = none)

/-- The invariant (every response on an output port is its register complemented, R94, R104; the owners keep the
single-issuer rule, R52) holds at reset. It holds there because no response is held and no input is pending, which are the
model's choices (log entries 1 and 2). -/
def Obligations.ResetSatisfiesTheInvariant : Prop := State.reset.Inv

/-- The invariant is kept by every step, from every state that has it, reachable or not. Responses and pending inputs are
held in the model's form (log entries 1 and 2). -/
def Obligations.EveryStepKeepsTheInvariant : Prop :=
  ∀ s t : State, s.Inv → step s = .next t → t.Inv

/-- From R52, R201, R214: the block runs on for ever exactly when its owners keep the single-issuer rule; it stops for nothing
else. It rests on two choices of the model: with no input pending the block idles (log entry 2), and an instant that breaks
the rule is refused whole (log entry 10). -/
def Obligations.BlockRunsOnExactlyUnderSingleIssuers : Prop :=
  ∀ s : State, s.RunsOn ↔ s.singleIssuer = true
end

