-- ==== Sys2Proof/Laws/Decode.lean ====
section
/-! SUPPORT. Port values and words carry the same information (R61), and the `op` codes name the operations (R62). -/

namespace Sys2Proof

variable {W : Nat}

@[simp] theorem Op.ofCode_code (o : Op) : Op.ofCode o.code = o := by cases o <;> rfl

@[simp] theorem Op.code_ofCode (c : BitVec 2) : (Op.ofCode c).code = c := by revert c; decide

/-- The value of a word, field by field. -/
theorem Ports.toNat_toWord (q : Ports W) :
    q.toWord.toNat = (q.op.toNat * 2 ^ 8 + q.dataIn.toNat) * 2 ^ W + q.polyIn.toNat := by
  have hd := q.dataIn.isLt
  have hp := q.polyIn.isLt
  simp only [Ports.toWord, BitVec.toNat_cast, BitVec.toNat_append]
  rw [← Nat.shiftLeft_add_eq_or_of_lt hd, ← Nat.shiftLeft_add_eq_or_of_lt hp, Nat.shiftLeft_eq, Nat.shiftLeft_eq]

@[simp] theorem Ports.ofWord_toWord (q : Ports W) : Ports.ofWord q.toWord = q := by
  have hd := q.dataIn.isLt
  have hp := q.polyIn.isLt
  have ho := q.op.isLt
  have hW : 0 < 2 ^ W := Nat.two_pow_pos W
  cases q with
  | mk o d p =>
    simp only [Ports.ofWord, Ports.mk.injEq]
    refine ⟨?_, ?_, ?_⟩ <;> apply BitVec.eq_of_toNat_eq <;>
      simp only [BitVec.extractLsb'_toNat, Ports.toNat_toWord, Nat.shiftRight_eq_div_pow] at *
    · rw [Nat.pow_add, ← Nat.div_div_eq_div_mul, Nat.mul_comm _ (2 ^ W), Nat.mul_add_div hW, Nat.div_eq_of_lt hp]
      omega
    · rw [Nat.mul_comm _ (2 ^ W), Nat.mul_add_div hW, Nat.div_eq_of_lt hp]
      omega
    · rw [Nat.pow_zero, Nat.div_one, Nat.mul_comm _ (2 ^ W), Nat.mul_add_mod, Nat.mod_eq_of_lt hp]

@[simp] theorem Ports.toWord_ofWord (x : BitVec (W + 10)) : (Ports.ofWord x).toWord = x := by
  apply BitVec.eq_of_toNat_eq
  have hx := x.isLt
  have h1 : x.toNat / 2 ^ W < 2 ^ 10 := by
    rw [Nat.div_lt_iff_lt_mul (Nat.two_pow_pos W)]
    exact lt_of_lt_of_eq hx (by rw [Nat.pow_add, Nat.mul_comm])
  have h2 := Nat.div_add_mod x.toNat (2 ^ W)
  simp only [Ports.toNat_toWord, Ports.ofWord, BitVec.extractLsb'_toNat, Nat.shiftRight_eq_div_pow, Nat.pow_add,
    ← Nat.div_div_eq_div_mul, Nat.pow_zero, Nat.div_one]
  generalize x.toNat / 2 ^ W = y at *
  have h3 : y / 2 ^ 8 % 2 ^ 2 * 2 ^ 8 + y % 2 ^ 8 = y := by omega
  rw [h3, Nat.mul_comm]; exact h2

/-- The word's `op` bits, in place: what the table's mask keeps (R67). -/
theorem Ports.toNat_toWord_mask (q : Ports W) :
    q.toWord.toNat &&& (3 <<< (W + 8)) = q.op.toNat <<< (W + 8) := by
  have hd := q.dataIn.isLt
  have hp := q.polyIn.isLt
  have ho := q.op.isLt
  have hlow : q.dataIn.toNat * 2 ^ W + q.polyIn.toNat < 2 ^ (W + 8) := by
    have : (q.dataIn.toNat + 1) * 2 ^ W ≤ 2 ^ 8 * 2 ^ W := Nat.mul_le_mul_right _ hd
    rw [Nat.add_mul] at this
    rw [Nat.pow_add, Nat.mul_comm (2 ^ W)]; omega
  have hval : q.toWord.toNat = q.op.toNat <<< (W + 8) ||| (q.dataIn.toNat * 2 ^ W + q.polyIn.toNat) := by
    rw [← Nat.shiftLeft_add_eq_or_of_lt hlow, Ports.toNat_toWord, Nat.shiftLeft_eq, Nat.pow_add]
    ring
  apply Nat.eq_of_testBit_eq
  intro i
  rw [hval]
  simp only [Nat.testBit_and, Nat.testBit_or, Nat.testBit_shiftLeft]
  by_cases hi : i < W + 8
  · simp [Nat.not_le.mpr hi]
  · have hi' : W + 8 ≤ i := Nat.not_lt.mp hi
    rw [Nat.testBit_lt_two_pow (Nat.lt_of_lt_of_le hlow (Nat.pow_le_pow_right (by omega) hi'))]
    have h3 : Nat.testBit 3 (i - (W + 8)) = decide (i - (W + 8) < 2) := Nat.testBit_two_pow_sub_one 2 _
    by_cases h2 : i - (W + 8) < 2
    · simp [h3, h2, hi']
    · have : q.op.toNat.testBit (i - (W + 8)) = false :=
        Nat.testBit_lt_two_pow (Nat.lt_of_lt_of_le ho (Nat.pow_le_pow_right (by omega) (Nat.not_lt.mp h2)))
      simp [h3, h2, this]

end Sys2Proof
end

