-- ==== Sys2Proof/Laws/State.lean ====
section
/-! SUPPORT. What each update of the state does to each field: no later proof unfolds a record update. -/

namespace Sys2Proof.Machine

variable {W : Nat}

@[simp] theorem Engine.create_reg (p : BitVec W) : (Engine.create p).reg = Config.initValue W := rfl
@[simp] theorem Engine.create_poly (p : BitVec W) : (Engine.create p).poly = p := rfl
@[simp] theorem Engine.create_crcOut (p : BitVec W) : (Engine.create p).crcOut = none := rfl
@[simp] theorem Engine.update_reg (e : Engine W) (b : Byte) : (e.update b).reg = fold e.reg e.poly b := rfl
@[simp] theorem Engine.update_poly (e : Engine W) (b : Byte) : (e.update b).poly = e.poly := rfl
@[simp] theorem Engine.update_crcOut (e : Engine W) (b : Byte) : (e.update b).crcOut = none := rfl
@[simp] theorem Engine.finalize_reg (e : Engine W) : e.finalize.reg = e.reg := rfl
@[simp] theorem Engine.finalize_poly (e : Engine W) : e.finalize.poly = e.poly := rfl
@[simp] theorem Engine.finalize_crcOut (e : Engine W) :
    e.finalize.crcOut = some (e.reg ^^^ Config.xorOut W) := rfl
@[simp] theorem Engine.quiet_reg (e : Engine W) : e.quiet.reg = e.reg := rfl
@[simp] theorem Engine.quiet_poly (e : Engine W) : e.quiet.poly = e.poly := rfl
@[simp] theorem Engine.quiet_crcOut (e : Engine W) : e.quiet.crcOut = none := rfl

/-- Two engines with the same registers and the same output are the same. -/
theorem Engine.ext_fields {e f : Engine W} (hr : e.reg = f.reg) (hp : e.poly = f.poly) (ho : e.crcOut = f.crcOut) :
    e = f := by
  cases e; cases f; simp_all

@[simp] theorem State.engine_setEngine (s : State) (V : Width) (e : Engine V.bits) :
    (s.setEngine V e).engine V = e := by
  cases V <;> rfl

theorem State.engine_setEngine_ne (s : State) {V U : Width} (h : U ≠ V) (e : Engine V.bits) :
    (s.setEngine V e).engine U = s.engine U := by
  cases V <;> cases U <;> first | rfl | exact absurd rfl h

@[simp] theorem State.pending_setEngine (s : State) (V : Width) (e : Engine V.bits) :
    (s.setEngine V e).pending = s.pending := by
  cases V <;> rfl

@[simp] theorem State.engine_quiet (s : State) (V : Width) : s.quiet.engine V = (s.engine V).quiet := by
  cases V <;> rfl

@[simp] theorem State.pending_quiet (s : State) : s.quiet.pending = s.pending := rfl

@[simp] theorem State.engine_resetEngines (s : State) (V : Width) :
    s.resetEngines.engine V = Engine.create (Config.defaultPoly V) := by
  cases V <;> rfl

@[simp] theorem State.pending_resetEngines (s : State) : s.resetEngines.pending = s.pending := rfl

@[simp] theorem State.engine_withPending (s : State) (l : List Input) (V : Width) :
    ({ s with pending := l } : State).engine V = s.engine V := by
  cases V <;> rfl

@[simp] theorem State.engine_reset (V : Width) :
    State.reset.engine V = Engine.create (Config.defaultPoly V) := by
  cases V <;> rfl

/-- A state is its five engines and what is pending. -/
theorem State.ext_engines {s t : State} (he : ∀ V, s.engine V = t.engine V) (hp : s.pending = t.pending) : s = t := by
  have h8 : s.crc8 = t.crc8 := he .w8
  have h16 : s.crc16 = t.crc16 := he .w16
  have h32 : s.crc32 = t.crc32 := he .w32
  have h64 : s.crc64 = t.crc64 := he .w64
  have h128 : s.crc128 = t.crc128 := he .w128
  cases s; cases t; simp_all

/-- The last of two updates of one engine counts. -/
@[simp] theorem State.setEngine_setEngine (s : State) (V : Width) (e f : Engine V.bits) :
    (s.setEngine V e).setEngine V f = s.setEngine V f := by
  cases V <;> rfl

@[simp] theorem State.setEngine_self (s : State) (V : Width) : s.setEngine V (s.engine V) = s := by
  cases V <;> rfl

/-- Updates of two different engines can be made in either order. -/
theorem State.setEngine_comm (s : State) {V U : Width} (h : U ≠ V) (e : Engine V.bits) (f : Engine U.bits) :
    (s.setEngine V e).setEngine U f = (s.setEngine U f).setEngine V e := by
  cases V <;> cases U <;> first | rfl | exact absurd rfl h

end Sys2Proof.Machine
end

