-- ==== Sys2Proof/Laws/Exec.lean ====
section
/-! SUPPORT. What `exec` and a command sequence can do, said once. -/

namespace Sys2Proof.Machine

/-- Every command is one of four operations at some width (R62): the case split of the proofs. -/
theorem instr_cases (i : Instr) :
    (∃ W p, i = Instr.createOf W p) ∨ (∃ W, i = Instr.defaultOf W) ∨ (∃ W b, i = Instr.updateOf W b) ∨
      (∃ W, i = Instr.finalizeOf W) := by
  cases i with
  | create8 p => exact .inl ⟨.w8, p, rfl⟩
  | create16 p => exact .inl ⟨.w16, p, rfl⟩
  | create32 p => exact .inl ⟨.w32, p, rfl⟩
  | create64 p => exact .inl ⟨.w64, p, rfl⟩
  | create128 p => exact .inl ⟨.w128, p, rfl⟩
  | default8 => exact .inr (.inl ⟨.w8, rfl⟩)
  | default16 => exact .inr (.inl ⟨.w16, rfl⟩)
  | default32 => exact .inr (.inl ⟨.w32, rfl⟩)
  | default64 => exact .inr (.inl ⟨.w64, rfl⟩)
  | default128 => exact .inr (.inl ⟨.w128, rfl⟩)
  | update8 b => exact .inr (.inr (.inl ⟨.w8, b, rfl⟩))
  | update16 b => exact .inr (.inr (.inl ⟨.w16, b, rfl⟩))
  | update32 b => exact .inr (.inr (.inl ⟨.w32, b, rfl⟩))
  | update64 b => exact .inr (.inr (.inl ⟨.w64, b, rfl⟩))
  | update128 b => exact .inr (.inr (.inl ⟨.w128, b, rfl⟩))
  | finalize8 => exact .inr (.inr (.inr ⟨.w8, rfl⟩))
  | finalize16 => exact .inr (.inr (.inr ⟨.w16, rfl⟩))
  | finalize32 => exact .inr (.inr (.inr ⟨.w32, rfl⟩))
  | finalize64 => exact .inr (.inr (.inr ⟨.w64, rfl⟩))
  | finalize128 => exact .inr (.inr (.inr ⟨.w128, rfl⟩))

@[simp] theorem width_createOf (W : Width) (p : BitVec W.bits) : (Instr.createOf W p).width = W := by cases W <;> rfl
@[simp] theorem width_defaultOf (W : Width) : (Instr.defaultOf W).width = W := by cases W <;> rfl
@[simp] theorem width_updateOf (W : Width) (b : Byte) : (Instr.updateOf W b).width = W := by cases W <;> rfl
@[simp] theorem width_finalizeOf (W : Width) : (Instr.finalizeOf W).width = W := by cases W <;> rfl

@[simp] theorem op_createOf (W : Width) (p : BitVec W.bits) : (Instr.createOf W p).op = .create := by cases W <;> rfl
@[simp] theorem op_defaultOf (W : Width) : (Instr.defaultOf W).op = .default := by cases W <;> rfl
@[simp] theorem op_updateOf (W : Width) (b : Byte) : (Instr.updateOf W b).op = .update := by cases W <;> rfl
@[simp] theorem op_finalizeOf (W : Width) : (Instr.finalizeOf W).op = .finalize := by cases W <;> rfl

@[simp] theorem exec_createOf (W : Width) (p : BitVec W.bits) (s : State) :
    exec (Instr.createOf W p) s = .next (s.setEngine W (Engine.create p)) := by
  cases W <;> rfl

@[simp] theorem exec_defaultOf (W : Width) (s : State) :
    exec (Instr.defaultOf W) s = .next (s.setEngine W (Engine.create (Config.defaultPoly W))) := by
  cases W <;> rfl

@[simp] theorem exec_updateOf (W : Width) (b : Byte) (s : State) :
    exec (Instr.updateOf W b) s = .next (s.setEngine W ((s.engine W).update b)) := by
  cases W <;> rfl

@[simp] theorem exec_finalizeOf (W : Width) (s : State) :
    exec (Instr.finalizeOf W) s = .next (s.setEngine W (s.engine W).finalize) := by
  cases W <;> rfl

/-- Everything a command can do: its own engine is replaced by one that its old value alone determines. -/
theorem exec_spec (i : Instr) :
    ∃ f : Engine i.width.bits → Engine i.width.bits, ∀ s, exec i s = .next (s.setEngine i.width (f (s.engine i.width))) := by
  obtain ⟨W, p, rfl⟩ | ⟨W, rfl⟩ | ⟨W, b, rfl⟩ | ⟨W, rfl⟩ := instr_cases i
  · cases W <;> exact ⟨fun _ => Engine.create p, fun _ => rfl⟩
  · cases W <;> exact ⟨fun _ => Engine.create (Config.defaultPoly _), fun _ => rfl⟩
  · cases W <;> exact ⟨fun e => e.update b, fun _ => rfl⟩
  · cases W <;> exact ⟨fun e => e.finalize, fun _ => rfl⟩

@[simp] theorem execAll_nil (s : State) : execAll [] s = .next s := rfl

theorem execAll_cons_of_next {i : Instr} {s t : State} (h : exec i s = .next t) (is : List Instr) :
    execAll (i :: is) s = execAll is t := by
  simp [execAll, h]

theorem responses_cons_of_next {i : Instr} {s t : State} (W : Width) (h : exec i s = .next t) (is : List Instr) :
    responses W (i :: is) s = (if i.width = W then (t.engine W).crcOut.toList else []) ++ responses W is t := by
  simp [responses, h]

/-- A command sequence is carried out to its end (R95, R201). -/
theorem execAll_next (is : List Instr) (s : State) : ∃ t, execAll is s = .next t := by
  induction is generalizing s with
  | nil => exact ⟨s, rfl⟩
  | cons i is ih =>
    obtain ⟨f, hf⟩ := exec_spec i
    rw [execAll_cons_of_next (hf s)]
    exact ih _

/-- A sequence in two parts. -/
theorem execAll_append {is : List Instr} {s t : State} (h : execAll is s = .next t) (js : List Instr) :
    execAll (is ++ js) s = execAll js t := by
  induction is generalizing s with
  | nil => cases h; rfl
  | cons i is ih =>
    obtain ⟨f, hf⟩ := exec_spec i
    rw [execAll_cons_of_next (hf s)] at h
    rw [List.cons_append, execAll_cons_of_next (hf s)]
    exact ih h

theorem mem_width_all (W : Width) : W ∈ Width.all := by cases W <;> decide

/-- An instant is well formed when every engine has at most one command (R52). -/
theorem instant_wf_iff (c : Instant) : c.wf = true ↔ ∀ W, (c.port W).length ≤ 1 := by
  simp only [Instant.wf, List.all_eq_true, decide_eq_true_eq]
  exact ⟨fun h W => h W (mem_width_all W), fun h W _ => h W⟩

@[simp] theorem width_decodePorts (W : Width) (q : Ports W.bits) : (decodePorts W q).width = W := by
  unfold decodePorts; split <;> simp

@[simp] theorem op_decodePorts (W : Width) (q : Ports W.bits) : (decodePorts W q).op = Op.ofCode q.op := by
  unfold decodePorts; split <;> simp_all

/-- An instant is refused exactly when it is not well formed (R52, R214). -/
theorem contendedEngine_eq_none_iff (c : Instant) : contendedEngine c = none ↔ c.wf = true := by
  simp only [contendedEngine, Instant.wf, List.find?_eq_none, List.all_eq_true, decide_eq_true_eq]
  constructor <;> intro h W hW <;> have := h W hW <;> omega

end Sys2Proof.Machine
end

