-- ==== Sys2Proof/Laws/Ops.lean ====
section
/-! SUPPORT. The small lemmas of the fold and of the message functions: each definition unfolded once. -/

namespace Sys2Proof.Machine

variable {W : Nat}

/-- A bit step, by its feedback bit (R111). -/
theorem bitStep_of_msb {r p : BitVec W} (h : msb r = true) : bitStep r p = (r <<< 1) ^^^ p := by
  simp [bitStep, h]

theorem bitStep_of_not_msb {r p : BitVec W} (h : msb r = false) : bitStep r p = r <<< 1 := by
  simp [bitStep, h]

@[simp] theorem bitSteps_zero (p r : BitVec W) : bitSteps p 0 r = r := rfl

@[simp] theorem bitSteps_succ (p r : BitVec W) (n : Nat) : bitSteps p (n + 1) r = bitSteps p n (bitStep r p) := rfl

/-- The last of `n + 1` bit steps split off. -/
theorem bitSteps_succ_last (p r : BitVec W) (n : Nat) : bitSteps p (n + 1) r = bitStep (bitSteps p n r) p := by
  induction n generalizing r with
  | zero => rfl
  | succ n ih => rw [bitSteps_succ, ih, ← bitSteps_succ]

theorem fold_eq_bitSteps (r p : BitVec W) (b : Byte) : fold r p b = bitSteps p 8 (r ^^^ alignByte W b) := rfl

/-- The aligned byte, bit by bit (R110): B in the top eight bits and zeros below. -/
theorem getLsbD_alignByte (b : Byte) (i : Nat) :
    (alignByte W b).getLsbD i = (decide (W - 8 ≤ i ∧ i < W) && b.getLsbD (i - (W - 8))) := by
  unfold alignByte Config.alignShift
  rw [BitVec.getLsbD_shiftLeft, BitVec.getLsbD_setWidth]
  by_cases h : W - 8 ≤ i <;> by_cases h' : i < W
  · have h1 : ¬ i < W - 8 := Nat.not_lt.mpr h
    have h2 : i - (W - 8) < W := by omega
    simp [h, h', h1, h2]
  · simp [h']
  · have h1 : i < W - 8 := Nat.not_le.mp h
    simp [h, h1]
  · simp [h']

@[simp] theorem updateMessage_nil (r p : BitVec W) : updateMessage r p [] = r := rfl

@[simp] theorem updateMessage_cons (r p : BitVec W) (b : Byte) (d : List Byte) :
    updateMessage r p (b :: d) = updateMessage (fold r p b) p d := rfl

end Sys2Proof.Machine
end

