-- ==== Sys2Proof/Laws/PerInstr.lean ====
section
/-! SUPPORT. The family TableMatch: for every command, the word it encodes to is the opcode table's `match` under the
table's `mask` (R67), and fits the format's length (R61). -/

namespace Sys2Proof.Laws.TableMatch

/-- The table's `match` and `mask` on the word of a command. -/
def Statement (i : Instr) : Prop :=
  (encode i).toNat &&& i.width.opMask = i.tableMatch ∧ (encode i).toNat < 2 ^ i.width.wordBits

/-- Every command by the one lemma about port words. -/
theorem of_ports (i : Instr) : Statement i :=
  ⟨Ports.toNat_toWord_mask (encodePorts i), (encode i).isLt⟩

theorem create8 (p : BitVec 8) : Statement (.create8 p) := of_ports _
theorem default8 : Statement .default8 := of_ports _
theorem update8 (b : Byte) : Statement (.update8 b) := of_ports _
theorem finalize8 : Statement .finalize8 := of_ports _
theorem create16 (p : BitVec 16) : Statement (.create16 p) := of_ports _
theorem default16 : Statement .default16 := of_ports _
theorem update16 (b : Byte) : Statement (.update16 b) := of_ports _
theorem finalize16 : Statement .finalize16 := of_ports _
theorem create32 (p : BitVec 32) : Statement (.create32 p) := of_ports _
theorem default32 : Statement .default32 := of_ports _
theorem update32 (b : Byte) : Statement (.update32 b) := of_ports _
theorem finalize32 : Statement .finalize32 := of_ports _
theorem create64 (p : BitVec 64) : Statement (.create64 p) := of_ports _
theorem default64 : Statement .default64 := of_ports _
theorem update64 (b : Byte) : Statement (.update64 b) := of_ports _
theorem finalize64 : Statement .finalize64 := of_ports _
theorem create128 (p : BitVec 128) : Statement (.create128 p) := of_ports _
theorem default128 : Statement .default128 := of_ports _
theorem update128 (b : Byte) : Statement (.update128 b) := of_ports _
theorem finalize128 : Statement .finalize128 := of_ports _

end Sys2Proof.Laws.TableMatch
end

