-- ==== Sys2Proof/Laws/Step.lean ====
section
/-! SUPPORT. What a step can do, said once: three ways to a next state, and none to a fault. -/

namespace Sys2Proof.Machine

/-- Everything a step that answers a next state can have done. -/
theorem step_cases {s t : State} (h : step s = .next t) :
    (s.pending = [] ∧ t = s.quiet) ∨
      (∃ rest, s.pending = .reset :: rest ∧ t = ({ s with pending := rest } : State).resetEngines) ∨
      (∃ c rest, s.pending = .commands c :: rest ∧ c.wf = true ∧
        execAll (instantCommands c) ({ s with pending := rest } : State).quiet = .next t) := by
  unfold step takeInput at h
  split at h
  · exact .inl ⟨‹_›, by cases h; rfl⟩
  · exact .inr (.inl ⟨_, ‹_›, by cases h; rfl⟩)
  · rename_i c rest hp
    unfold issue at h
    split at h
    · cases h
    · exact .inr (.inr ⟨c, rest, hp, (contendedEngine_eq_none_iff c).mp ‹_›, h⟩)

/-- A step answers a next state when the next input is well formed. -/
theorem step_next_of_wf {s : State} (h : ∀ x ∈ s.pending.head?, x.wf = true) : ∃ t, step s = .next t := by
  unfold step takeInput
  split
  · exact ⟨_, rfl⟩
  · exact ⟨_, rfl⟩
  · rename_i c rest hp
    have hwf : (Input.commands c).wf = true := h _ (by simp [hp])
    have hc : contendedEngine c = none := (contendedEngine_eq_none_iff c).mpr hwf
    simp only [issue, hc]
    exact execAll_next _ _

/-- Running on, for any core, after a step that answers a next state. -/
theorem core_run_succ_of_next (M : Host.Core) {s t : M.State} (h : M.step s = .next t) (n : Nat) :
    M.run (n + 1) s = M.run n t := by
  simp only [Host.Core.run, h]

/-- A refused step refuses every longer run, for any core. -/
theorem core_run_succ_of_refused (M : Host.Core) {s : M.State} {r : M.Refusal} (h : M.step s = .refused r) (n : Nat) :
    M.run (n + 1) s = .refused r := by
  simp only [Host.Core.run, h]

theorem run_succ_of_next {s t : State} (h : step s = .next t) (n : Nat) :
    Host.Core.run Sys2Proof.core (n + 1) s = Host.Core.run Sys2Proof.core n t :=
  core_run_succ_of_next Sys2Proof.core h n

theorem run_succ_of_refused {s : State} {r : Refusal} (h : step s = .refused r) (n : Nat) :
    Host.Core.run Sys2Proof.core (n + 1) s = .refused r :=
  core_run_succ_of_refused Sys2Proof.core h n

end Sys2Proof.Machine
end

