-- ==== Sys2Proof/Tests/Slice0.lean ====
section
/-! SUPPORT. Tests whose expected values are the spec's: its examples, its tables, its test vectors (95_test_vectors.md), each
named where it stands. Then the witnesses that the hypotheses of the statements can be met. -/

namespace Sys2Proof.Tests

open Sys2Proof.Machine Sys2Proof.Claims

/-! ### Well-formedness: what each check refuses (R52, R71, R72) -/

theorem test_wf_refuses_two_on_port8 : ({ port8 := [⟨0, 0, 0⟩, ⟨1, 0, 0⟩] } : Instant).wf = false := by decide
theorem test_wf_refuses_two_on_port16 : ({ port16 := [⟨0, 0, 0⟩, ⟨1, 0, 0⟩] } : Instant).wf = false := by decide
theorem test_wf_refuses_two_on_port32 : ({ port32 := [⟨0, 0, 0⟩, ⟨1, 0, 0⟩] } : Instant).wf = false := by decide
theorem test_wf_refuses_two_on_port64 : ({ port64 := [⟨0, 0, 0⟩, ⟨1, 0, 0⟩] } : Instant).wf = false := by decide
theorem test_wf_refuses_two_on_port128 : ({ port128 := [⟨0, 0, 0⟩, ⟨1, 0, 0⟩] } : Instant).wf = false := by decide
theorem test_wf_accepts_one_on_every_port :
    ({ port8 := [⟨0, 0, 0⟩], port16 := [⟨0, 0, 0⟩], port32 := [⟨0, 0, 0⟩], port64 := [⟨0, 0, 0⟩],
       port128 := [⟨0, 0, 0⟩] } : Instant).wf = true := by decide
theorem test_wf_refuses_wide_polynomial : (AsmLine.create .w8 0x100).wf = false := by decide
theorem test_wf_refuses_wide_polynomial_of_crcp : (AsmLine.crcp .w16 0x10000 (.numbers [])).wf = false := by decide
theorem test_wf_refuses_byte_256 : (AsmLine.update .w8 (.numbers [255, 256])).wf = false := by decide
theorem test_wf_refuses_text_not_ascii : (AsmLine.crc .w8 (.text ['a', 'é'])).wf = false := by decide
theorem test_wf_accepts_every_command_kind :
    (Instr.create8 0).wf = true ∧ (Instr.update128 0xFF).wf = true := by decide

/-! ### Decoding: a word of every row, ignored bits set (95_test_vectors.md section 2.10), and the rejections -/

theorem test_decode_create8 :
    decode .w8 0x00031#18 = .create8 0x31#8 ∧
    decode .w8 0x05A31#18 = .create8 0x31#8 := by decide
theorem test_decode_default8 :
    decode .w8 0x10000#18 = .default8 ∧
    decode .w8 0x1FFFF#18 = .default8 := by decide
theorem test_decode_update8 :
    decode .w8 0x26800#18 = .update8 0x68#8 ∧
    decode .w8 0x268FF#18 = .update8 0x68#8 := by decide
theorem test_decode_finalize8 :
    decode .w8 0x30000#18 = .finalize8 ∧
    decode .w8 0x3FFFF#18 = .finalize8 := by decide
theorem test_decode_create16 :
    decode .w16 0x0001021#26 = .create16 0x1021#16 ∧
    decode .w16 0x05A1021#26 = .create16 0x1021#16 := by decide
theorem test_decode_default16 :
    decode .w16 0x1000000#26 = .default16 ∧
    decode .w16 0x1FFFFFF#26 = .default16 := by decide
theorem test_decode_update16 :
    decode .w16 0x2680000#26 = .update16 0x68#8 ∧
    decode .w16 0x268FFFF#26 = .update16 0x68#8 := by decide
theorem test_decode_finalize16 :
    decode .w16 0x3000000#26 = .finalize16 ∧
    decode .w16 0x3FFFFFF#26 = .finalize16 := by decide
theorem test_decode_create32 :
    decode .w32 0x0001EDC6F41#42 = .create32 0x1EDC6F41#32 ∧
    decode .w32 0x05A1EDC6F41#42 = .create32 0x1EDC6F41#32 := by decide
theorem test_decode_default32 :
    decode .w32 0x10000000000#42 = .default32 ∧
    decode .w32 0x1FFFFFFFFFF#42 = .default32 := by decide
theorem test_decode_update32 :
    decode .w32 0x26800000000#42 = .update32 0x68#8 ∧
    decode .w32 0x268FFFFFFFF#42 = .update32 0x68#8 := by decide
theorem test_decode_finalize32 :
    decode .w32 0x30000000000#42 = .finalize32 ∧
    decode .w32 0x3FFFFFFFFFF#42 = .finalize32 := by decide
theorem test_decode_create64 :
    decode .w64 0x000000000000000001B#74 = .create64 0x1B#64 ∧
    decode .w64 0x05A000000000000001B#74 = .create64 0x1B#64 := by decide
theorem test_decode_default64 :
    decode .w64 0x1000000000000000000#74 = .default64 ∧
    decode .w64 0x1FFFFFFFFFFFFFFFFFF#74 = .default64 := by decide
theorem test_decode_update64 :
    decode .w64 0x2680000000000000000#74 = .update64 0x68#8 ∧
    decode .w64 0x268FFFFFFFFFFFFFFFF#74 = .update64 0x68#8 := by decide
theorem test_decode_finalize64 :
    decode .w64 0x3000000000000000000#74 = .finalize64 ∧
    decode .w64 0x3FFFFFFFFFFFFFFFFFF#74 = .finalize64 := by decide
theorem test_decode_create128 :
    decode .w128 0x00000000000000000000000000000000087#138 = .create128 0x87#128 ∧
    decode .w128 0x05A00000000000000000000000000000087#138 = .create128 0x87#128 := by decide
theorem test_decode_default128 :
    decode .w128 0x10000000000000000000000000000000000#138 = .default128 ∧
    decode .w128 0x1FFFFFFFFFFFFFFFFFFFFFFFFFFFFFFFFFF#138 = .default128 := by decide
theorem test_decode_update128 :
    decode .w128 0x26800000000000000000000000000000000#138 = .update128 0x68#8 ∧
    decode .w128 0x268FFFFFFFFFFFFFFFFFFFFFFFFFFFFFFFF#138 = .update128 0x68#8 := by decide
theorem test_decode_finalize128 :
    decode .w128 0x30000000000000000000000000000000000#138 = .finalize128 ∧
    decode .w128 0x3FFFFFFFFFFFFFFFFFFFFFFFFFFFFFFFFFF#138 = .finalize128 := by decide

/-- R67, the E8 map bit by bit: 10 dddddddd iiiiiiii, with d = 0x68. -/
theorem test_decode_update8_bits : decode .w8 0b10_01101000_00000000#18 = .update8 0b01101000#8 := by decide
/-- R61, format E16 bit by bit: 00 iiiiiiii pppppppppppppppp, with p = 0x1021. -/
theorem test_decode_create16_bits : decode .w16 0b00_00000000_0001000000100001#26 = .create16 0x1021#16 := by decide

theorem test_decode_rejects_a_length_of_no_format : decodeBits 20 0 = .error (.noSuchFormat 20) := by decide
theorem test_decode_rejects_a_word_too_long : decodeBits 24 0x40000 = .error (.wordTooLong .w8) := by decide
theorem test_decode_table_word_in_whole_bytes :
    decodeTableWord 24 0x26800 = some (.update8 0x68#8) ∧ decodeTableWord 32 0x2680000 = some (.update16 0x68#8) ∧
    decodeTableWord 48 0x26800000000 = some (.update32 0x68#8) ∧
    decodeTableWord 80 0x2680000000000000000 = some (.update64 0x68#8) ∧
    decodeTableWord 144 0x26800000000000000000000000000000000 = some (.update128 0x68#8) := by decide

/-! ### The commands: at most two small facts each, from the examples of their rules -/

/-- The state after reset with the engine of width `W` in a given condition. -/
def withEngine (W : Width) (reg poly : BitVec W.bits) : State :=
  State.reset.setEngine W { reg := reg, poly := poly, crcOut := none }

/-- What a command leaves in an engine, if it completes: REG_W, POLY_W, the response. -/
def after (i : Instr) (s : State) (W : Width) : Option (Engine W.bits) :=
  match exec i s with
  | .next t => some (t.engine W)
  | .fault _ => none
  | .refused _ => none

theorem test_create8 : after (.create8 0x31#8) (withEngine .w8 0x6B 0x07) .w8 =
    some ⟨0xFF, 0x31, none⟩ := by decide
theorem test_default8 : after .default8 (withEngine .w8 0x00 0x31) .w8 =
    some ⟨0xFF, 0x07, none⟩ := by decide
theorem test_update8 : after (.update8 0x68#8) State.reset .w8 =
    some ⟨0xEC, 0x07, none⟩ := by decide +kernel
theorem test_update8_again : after (.update8 0x65#8) (withEngine .w8 0xEC 0x07) .w8 =
    some ⟨0xB6, 0x07, none⟩ := by decide +kernel
theorem test_finalize8 : after .finalize8 (withEngine .w8 0xAB 0x07) .w8 =
    some ⟨0xAB, 0x07, some 0x54⟩ := by decide
theorem test_create16 : after (.create16 0x1021#16) (withEngine .w16 0x37EB 0x8005) .w16 =
    some ⟨0xFFFF, 0x1021, none⟩ := by decide
theorem test_default16 : after .default16 (withEngine .w16 0x00 0x1021) .w16 =
    some ⟨0xFFFF, 0x8005, none⟩ := by decide
theorem test_update16 : after (.update16 0x68#8) State.reset .w16 =
    some ⟨0x7C71, 0x8005, none⟩ := by decide +kernel
theorem test_update16_again : after (.update16 0x65#8) (withEngine .w16 0x7C71 0x8005) .w16 =
    some ⟨0xF155, 0x8005, none⟩ := by decide +kernel
theorem test_finalize16 : after .finalize16 (withEngine .w16 0x1CC5 0x8005) .w16 =
    some ⟨0x1CC5, 0x8005, some 0xE33A⟩ := by decide
theorem test_create32 : after (.create32 0x1EDC6F41#32) (withEngine .w32 0xBB08EC87 0x04C11DB7) .w32 =
    some ⟨0xFFFFFFFF, 0x1EDC6F41, none⟩ := by decide
theorem test_default32 : after .default32 (withEngine .w32 0x00 0x1EDC6F41) .w32 =
    some ⟨0xFFFFFFFF, 0x04C11DB7, none⟩ := by decide
theorem test_update32 : after (.update32 0x68#8) State.reset .w32 =
    some ⟨0xC4A5949B, 0x04C11DB7, none⟩ := by decide +kernel
theorem test_update32_again : after (.update32 0x65#8) (withEngine .w32 0xC4A5949B 0x04C11DB7) .w32 =
    some ⟨0x507AD0B9, 0x04C11DB7, none⟩ := by decide +kernel
theorem test_finalize32 : after .finalize32 (withEngine .w32 0xE6CE9AC2 0x04C11DB7) .w32 =
    some ⟨0xE6CE9AC2, 0x04C11DB7, some 0x1931653D⟩ := by decide
theorem test_create64 : after (.create64 0x1B#64) (withEngine .w64 0x3D78FDFCDE6BC462 0x42F0E1EBA9EA3693) .w64 =
    some ⟨0xFFFFFFFFFFFFFFFF, 0x1B, none⟩ := by decide
theorem test_default64 : after .default64 (withEngine .w64 0x00 0x1B) .w64 =
    some ⟨0xFFFFFFFFFFFFFFFF, 0x42F0E1EBA9EA3693, none⟩ := by decide
theorem test_update64 : after (.update64 0x68#8) State.reset .w64 =
    some ⟨0xE11A26B9E650B948, 0x42F0E1EBA9EA3693, none⟩ := by decide +kernel
theorem test_update64_again : after (.update64 0x65#8) (withEngine .w64 0xE11A26B9E650B948 0x42F0E1EBA9EA3693) .w64 =
    some ⟨0xA5EF3A6323C9D012, 0x42F0E1EBA9EA3693, none⟩ := by decide +kernel
theorem test_finalize64 : after .finalize64 (withEngine .w64 0x13AC77B865836EC0 0x42F0E1EBA9EA3693) .w64 =
    some ⟨0x13AC77B865836EC0, 0x42F0E1EBA9EA3693, some 0xEC5388479A7C913F⟩ := by decide
theorem test_create128 : after (.create128 0x87#128) (withEngine .w128 0xE4FFB56E3810E6ECB18863F53CDF5273 0x0E3C3D5A7E9F7D4E1F3F0FBAB65C7891) .w128 =
    some ⟨0xFFFFFFFFFFFFFFFFFFFFFFFFFFFFFFFF, 0x87, none⟩ := by decide
theorem test_default128 : after .default128 (withEngine .w128 0x00 0x87) .w128 =
    some ⟨0xFFFFFFFFFFFFFFFFFFFFFFFFFFFFFFFF, 0x0E3C3D5A7E9F7D4E1F3F0FBAB65C7891, none⟩ := by decide
theorem test_update128 : after (.update128 0x68#8) State.reset .w128 =
    some ⟨0x0222876759B68C119388D90FB4043E90, 0x0E3C3D5A7E9F7D4E1F3F0FBAB65C7891, none⟩ := by decide +kernel
theorem test_update128_again : after (.update128 0x65#8) (withEngine .w128 0x0222876759B68C119388D90FB4043E90 0x0E3C3D5A7E9F7D4E1F3F0FBAB65C7891) .w128 =
    some ⟨0x5CC352BA465E63A1C338271F37823CB5, 0x0E3C3D5A7E9F7D4E1F3F0FBAB65C7891, none⟩ := by decide +kernel
theorem test_finalize128 : after .finalize128 (withEngine .w128 0x28DC32A07C500617568D642D9C776404 0x0E3C3D5A7E9F7D4E1F3F0FBAB65C7891) .w128 =
    some ⟨0x28DC32A07C500617568D642D9C776404, 0x0E3C3D5A7E9F7D4E1F3F0FBAB65C7891, some 0xD723CD5F83AFF9E8A9729BD263889BFB⟩ := by decide

/-- 95 section 2.5: CREATE.8 0xFF then UPDATE.8 0x68 then FINALIZE.8 returns 0x4B. -/
theorem test_polynomial_all_ones : crc 0xFF#8 [0x68#8] = 0x4B#8 := by decide +kernel

/-! ### The source's own vectors (95 section 1.1), and other messages (section 2.4) -/

theorem test_hello_world_8 : crc (Config.defaultPoly .w8) helloWorld = 0x94 := by decide +kernel
theorem test_hello_world_16 : crc (Config.defaultPoly .w16) helloWorld = 0xC814 := by decide +kernel
theorem test_hello_world_32 : crc (Config.defaultPoly .w32) helloWorld = 0x44F71378 := by decide +kernel
theorem test_hello_world_64 : crc (Config.defaultPoly .w64) helloWorld = 0xC287020321943B9D := by decide +kernel
theorem test_hello_world_128 : crc (Config.defaultPoly .w128) helloWorld = 0x1B004A91C7EF19134E779C0AC320AD8C := by decide +kernel
theorem test_check_32 : crc (Config.defaultPoly .w32)
    (asmBytes (.text ['1', '2', '3', '4', '5', '6', '7', '8', '9'])) = 0xFC891918#32 := by decide +kernel

/-! ### The bit step and the XOR tree (95 sections 2.1, 2.11) -/

theorem test_bit_step_8 : bitStep 0x81#8 0x07#8 = 0x05#8 ∧ bitStep 0x7F#8 0x07#8 = 0xFE#8 := by decide
theorem test_bit_step_16 : bitStep 0x8001#16 0x8005#16 = 0x8007#16 ∧ bitStep 0x7FFF#16 0x8005#16 = 0xFFFE#16 := by decide
theorem test_xor_tree_feedback_bits :
    (feedbackBits 0x8005#16 0x97#8 8).reverse = [true, true, true, false, false, true, false, true] := by decide +kernel
theorem test_xor_tree_16 : xorTreeFold 0x7C71#16 0x8005#16 0x65#8 = 0xF155#16 := by decide +kernel

/-! ### Steps: presentation, simultaneous commands, reset, idling -/

/-- What a step leaves in an engine, if it completes. -/
def afterStep (s : State) (W : Width) : Option (Engine W.bits) :=
  match step s with
  | .next t => some (t.engine W)
  | .fault _ => none
  | .refused _ => none

/-- Program 7, command 1, straight from reset. -/
theorem test_step_runs_the_presented_word :
    afterStep (State.reset.withFetchWord 144 0x26800000000000000000000000000000000) .w128 =
      some ⟨0x0222876759B68C119388D90FB4043E90, 0x0E3C3D5A7E9F7D4E1F3F0FBAB65C7891, none⟩ := by decide +kernel
/-- 95 section 2.9: CREATE.8 0x00 over REG = 0x6B. -/
theorem test_step_create8 : afterStep ((withEngine .w8 0x6B 0x07).withFetchWord 24 0x00000) .w8 =
    some ⟨0xFF, 0x00, none⟩ := by decide
/-- Two engines at one instant (R51): Program 5's first two commands together. -/
theorem test_step_two_engines :
    afterStep { State.reset with pending := [.commands { port8 := [⟨2, 0x61, 0⟩], port64 := [⟨2, 0x61, 0⟩] }] } .w8 =
      some ⟨0xD3, 0x07, none⟩ ∧
    afterStep { State.reset with pending := [.commands { port8 := [⟨2, 0x61, 0⟩], port64 := [⟨2, 0x61, 0⟩] }] } .w64 =
      some ⟨0x318C0BD8533F5665, 0x42F0E1EBA9EA3693, none⟩ := by decide +kernel
/-- R214: two commands to one engine at one instant are refused. -/
theorem test_step_refuses_simultaneous_commands :
    (match step { State.reset with pending := [.commands { port32 := [⟨3, 0, 0⟩, ⟨3, 0, 0⟩] }] } with
      | .refused r => decide (r = .simultaneousCommands .w32)
      | .next _ => false
      | .fault _ => false) = true := by decide
/-- R220: the reset event over REG = 0x00, POLY = 0x31. -/
theorem test_step_reset : afterStep { withEngine .w8 0x00 0x31 with pending := [.reset] } .w8 =
    some ⟨0xFF, 0x07, none⟩ := by decide
/-- R60: with nothing presented the engine holds. -/
theorem test_step_idle : afterStep (withEngine .w16 0x37EB 0x1021) .w16 = some ⟨0x37EB, 0x1021, none⟩ := by decide

/-! ### The notation (R71, R72) -/

theorem test_assemble_crc : assemble (.crc .w8 (.text ['a', 'b'])) =
    some [.default8, .update8 0x61#8, .update8 0x62#8, .finalize8] := by decide
theorem test_assemble_empty_update : assemble (.update .w64 (.text [])) = some [] := by decide
theorem test_assemble_rejects : assemble (.create .w8 256) = none := by decide

/-! ### Witnesses: the hypotheses of the statements can be met -/

theorem witness_CreateLoadsPolynomialAndAllOnes :
    (0x05A31#18).toNat &&& 0x30000 = 0x00000 ∧ (0x05A1021#26).toNat &&& 0x3000000 = 0x0000000 ∧
    (0x05A1EDC6F41#42).toNat &&& 0x30000000000 = 0x00000000000 ∧
    (0x05A000000000000001B#74).toNat &&& 0x3000000000000000000 = 0 ∧
    (0x05A00000000000000000000000000000087#138).toNat &&& 0x30000000000000000000000000000000000 = 0 := by decide
theorem witness_DefaultLoadsDefaultPolynomialAndAllOnes :
    (0x1FFFF#18).toNat &&& 0x30000 = 0x10000 ∧ (0x1FFFFFF#26).toNat &&& 0x3000000 = 0x1000000 ∧
    (0x1FFFFFFFFFF#42).toNat &&& 0x30000000000 = 0x10000000000 ∧
    (0x1FFFFFFFFFFFFFFFFFF#74).toNat &&& 0x3000000000000000000 = 0x1000000000000000000 ∧
    (0x1FFFFFFFFFFFFFFFFFFFFFFFFFFFFFFFFFF#138).toNat &&& 0x30000000000000000000000000000000000 =
      0x10000000000000000000000000000000000 := by decide
theorem witness_UpdateFoldsOneByte :
    (0x268FF#18).toNat &&& 0x30000 = 0x20000 ∧ (0x268FFFF#26).toNat &&& 0x3000000 = 0x2000000 ∧
    (0x268FFFFFFFF#42).toNat &&& 0x30000000000 = 0x20000000000 ∧
    (0x268FFFFFFFFFFFFFFFF#74).toNat &&& 0x3000000000000000000 = 0x2000000000000000000 ∧
    (0x268FFFFFFFFFFFFFFFFFFFFFFFFFFFFFFFF#138).toNat &&& 0x30000000000000000000000000000000000 =
      0x20000000000000000000000000000000000 := by decide
theorem witness_UpdateFoldsOneByte_top_byte :
    (0xFF#8 : Byte) = State.reset.crc8.reg.extractLsb' 0 8 ∧ (0xFF#8 : Byte) = State.reset.crc16.reg.extractLsb' 8 8 ∧
    (0xFF#8 : Byte) = State.reset.crc32.reg.extractLsb' 24 8 ∧ (0xFF#8 : Byte) = State.reset.crc64.reg.extractLsb' 56 8 ∧
    (0xFF#8 : Byte) = State.reset.crc128.reg.extractLsb' 120 8 := by decide
theorem witness_FinalizeReturnsTheComplement :
    (0x3FFFF#18).toNat &&& 0x30000 = 0x30000 ∧ (0x3FFFFFF#26).toNat &&& 0x3000000 = 0x3000000 ∧
    (0x3FFFFFFFFFF#42).toNat &&& 0x30000000000 = 0x30000000000 ∧
    (0x3FFFFFFFFFFFFFFFFFF#74).toNat &&& 0x3000000000000000000 = 0x3000000000000000000 ∧
    (0x3FFFFFFFFFFFFFFFFFFFFFFFFFFFFFFFFFF#138).toNat &&& 0x30000000000000000000000000000000000 =
      0x30000000000000000000000000000000000 := by decide
theorem witness_FinalizeReturnsTheComplement_fresh :
    State.reset.crc8.reg = 0xFF#8 ∧ State.reset.crc16.reg = 0xFFFF#16 ∧ State.reset.crc32.reg = 0xFFFFFFFF#32 ∧
    State.reset.crc64.reg = 0xFFFFFFFFFFFFFFFF#64 ∧
    State.reset.crc128.reg = 0xFFFFFFFFFFFFFFFFFFFFFFFFFFFFFFFF#128 := by decide
theorem witness_DecodingIsTotalAndFollowsOp :
    (0x00031#18).extractLsb' 16 2 = 0b00#2 ∧ (0x10000#18).extractLsb' 16 2 = 0b01#2 ∧
    (0x26800#18).extractLsb' 16 2 = 0b10#2 ∧ (0x30000#18).extractLsb' 16 2 = 0b11#2 := by decide
theorem witness_OpcodeTableRowsSelectTheirCommands :
    opcodeTable.all (fun row => decide (row.matchBits &&& row.mask = row.matchBits ∧
      row.matchBits < 2 ^ (row.engine.bits + 10))) = true := by decide
theorem witness_UnusedPortsAreIgnored :
    let q : Ports 8 := ⟨0b00#2, 0x5A#8, 0x31#8⟩
    let q' : Ports 8 := ⟨0b00#2, 0x00#8, 0x31#8⟩
    let u : Ports 8 := ⟨0b10#2, 0x68#8, 0xFF#8⟩
    let u' : Ports 8 := ⟨0b10#2, 0x68#8, 0x00#8⟩
    q ≠ q' ∧ decodePorts .w8 q = decodePorts .w8 q' ∧ u ≠ u' ∧ decodePorts .w8 u = decodePorts .w8 u' := by decide
theorem witness_EveryCommandDecodesFromItsEncoding : (Instr.create64 0x1B#64).wf = true := by decide
theorem witness_EnginesShareNoState :
    let s := State.reset
    let s' := State.reset.setEngine .w16 ⟨0#16, 0#16, none⟩
    s ≠ s' ∧ (s.engine (Instr.update8 0).width).reg = (s'.engine (Instr.update8 0).width).reg ∧
      (s.engine (Instr.update8 0).width).poly = (s'.engine (Instr.update8 0).width).poly ∧
      (Width.w16 : Width) ≠ (Instr.update8 0).width := by decide
theorem witness_AlignChangesTheTopByteOnly : 8 ≤ 8 ∧ 8 ≤ 128 := by decide
theorem witness_BitStepShiftsAndXorsOnTopBit :
    0 < 8 ∧ (0x81#8 &&& (1#8 <<< (8 - 1)) ≠ 0#8) ∧ (0x7F#8 &&& (1#8 <<< (8 - 1)) = 0#8) := by decide
theorem witness_ShiftsTruncateToTheWidth : 0 < 1 ∧ 2 ^ (8 - 1) ≤ (0x80#8).toNat ∧ 8 ≤ 8 := by decide
theorem witness_BitStepIsTheShiftRegister : 0 < 8 ∧ 1 ≤ 1 ∧ 1 ≤ 8 - 1 ∧ 1 ≤ 7 ∧ 7 ≤ 8 - 1 := by decide
theorem witness_BitStepIsTimesXModuloGenerator : 0 < 1 := by decide
theorem witness_FoldIsPolynomialDivision : 8 ≤ 8 := by decide
theorem witness_XorTreeComputesTheFold : 8 ≤ 8 ∧ 8 ≤ 128 := by decide
theorem witness_FoldSplitsAtTheTopByte : 8 < 16 := by decide
theorem witness_PolynomialZeroShiftsTheRegisterOut : 8 ≤ 8 ∧ 8 < 16 ∧ 16 ≤ 8 * ([0x68#8, 0x65#8] : List Byte).length := by decide
theorem witness_PolynomialZeroTables :
    [(0xFF#8, 0x00#8), (0x00#8, 0xFF#8), (0x00#8, 0xFF#8)][([0xAB#8] : List Byte).length]? = some (0x00#8, 0xFF#8) ∧
    ((withEngine .w16 0x37EB 0x0000).engine .w16).poly = 0#16 ∧ Width.w16.bits ≤ 8 * ([0x68#8, 0x65#8] : List Byte).length ∧
    (State.reset.engine .w32).reg = Config.initValue 32 := by decide
theorem witness_ByteThatCancelsTheTopOfTheRegister : 8 ≤ 16 ∧ 0x7C#8 = (0x7C71#16).extractLsb' (16 - 8) 8 := by decide
theorem witness_PolynomialIsConstantWithinAnInstance :
    ([.update8 0x61, .create16 0, .finalize8] : List Instr).all
      (fun i => decide (i.width = .w8 → i.op ≠ .create ∧ i.op ≠ .default)) = true := by decide
theorem witness_PolynomialChangeRestartsTheMessage :
    ∃ t, step (State.reset.withFetchWord 18 0x00031) = .next t ∧
      (t.engine .w8).poly ≠ ((State.reset.withFetchWord 18 0x00031).engine .w8).poly :=
  ⟨_, rfl, by decide⟩
theorem witness_StepRunsThePresentedCommand :
    ({ State.reset with pending := [.commands (Instant.single .w8 ⟨2, 0x68, 0⟩), .reset] } : State).pending =
      .commands (Instant.single .w8 ⟨2, 0x68, 0⟩) :: [.reset] := rfl
theorem witness_EnginesHoldWhenNoCommandIsIssued :
    State.reset.pending = [] ∧
    ({ State.reset with pending := [.commands {}] } : State).pending = .commands {} :: [] := ⟨rfl, rfl⟩
theorem witness_OnlySimultaneousCommandsAreRefused :
    ({ State.reset with pending := [.commands { port8 := [⟨0, 0, 0⟩, ⟨3, 0, 0⟩] }] } : State).pending =
      .commands { port8 := [⟨0, 0, 0⟩, ⟨3, 0, 0⟩] } :: [] ∧
    ∃ W, 2 ≤ (({ port8 := [⟨0, 0, 0⟩, ⟨3, 0, 0⟩] } : Instant).port W).length := ⟨rfl, .w8, by decide⟩
theorem witness_CommandsToDifferentEnginesCommute : (Instr.update8 0).width ≠ (Instr.update64 0).width := by decide
theorem witness_SimultaneousEnginesRunIndependently :
    let c : Instant := { port8 := [⟨2, 0x61, 0⟩], port64 := [⟨3, 0, 0⟩] }
    ({ State.reset with pending := [.commands c] } : State).pending = .commands c :: [] ∧ c.wf = true ∧
      c.port .w16 = [] ∧ c.port .w8 = [⟨2, 0x61, 0⟩] := by decide
theorem witness_PresentedCommandsRunInOrder :
    ({ State.reset with pending := [.commands { port8 := [⟨2, 0x61, 0⟩] }, .reset] } : State).pending =
      [Instr.update8 0x61].map Instr.present ++ [.reset] := by decide
theorem witness_ChecksumOfAMessage :
    let create : List Input :=
      [.commands { port8 := [⟨0, 0, 0x31⟩] }, .commands { port8 := [⟨2, 0x61, 0⟩] }, .commands { port8 := [⟨3, 0, 0⟩] }]
    let default : List Input :=
      [.commands { port8 := [⟨1, 0, 0⟩] }, .commands { port8 := [⟨2, 0x61, 0⟩] }, .commands { port8 := [⟨3, 0, 0⟩] }]
    create = (Instr.createOf .w8 0x31#8 :: updateCommands .w8 [0x61#8] ++ [Instr.finalizeOf .w8]).map Instr.present ++ [] ∧
    default = (Instr.defaultOf .w8 :: updateCommands .w8 [0x61#8] ++ [Instr.finalizeOf .w8]).map Instr.present ++ [] := by
  decide
theorem witness_PolynomialShowsOnlyThroughUpdate :
    ((withEngine .w8 0x6B 0x07).engine .w8).reg = ((withEngine .w8 0x6B 0x31).engine .w8).reg ∧
    ((withEngine .w8 0x6B 0x07).engine .w8).poly ≠ ((withEngine .w8 0x6B 0x31).engine .w8).poly ∧
    ([.finalize8, .update16 0x61] : List Instr).all (fun i => decide (i.width = .w8 → i.op ≠ .update)) = true := by decide
theorem witness_PseudoInstructionsExpandAsListed :
    (AsmLine.crcp .w8 0xFF (.numbers [0, 255])).wf = true ∧ (AsmLine.crcp .w8 0x100 (.numbers [])).wf = false := by decide
theorem witness_ResetEventIsDefaultOnEveryEngine :
    ({ withEngine .w8 0x00 0x31 with pending := [.reset] } : State).pending = .reset :: [] := rfl
theorem witness_EveryStepKeepsTheInvariant :
    ∃ s t : State, s.Inv ∧ s.pending ≠ [] ∧ step s = .next t :=
  ⟨State.reset.withFetchWord 18 0x30000, _, ⟨fun W => by cases W <;> rfl, by decide⟩, by decide, rfl⟩
theorem witness_BlockRunsOnExactlyUnderSingleIssuers :
    (State.reset.withFetchWord 18 0x30000).singleIssuer = true ∧
    ({ State.reset with pending := [.commands { port8 := [⟨0, 0, 0⟩, ⟨3, 0, 0⟩] }] } : State).singleIssuer = false := by
  decide

end Sys2Proof.Tests
end

section
/-! The constants of each width (R6, R25) and their obligation. -/

namespace Sys2Proof.Config

@[simp] theorem initValue_eq_ones (W : Nat) : initValue W = ones W := rfl
@[simp] theorem xorOut_eq_ones (W : Nat) : xorOut W = ones W := rfl

/-- Settles O14: the five rows are closed values; INIT_W and XOROUT_W are the all-ones value at every width. -/
theorem widthConstantsAsTabulated : Obligations.WidthConstantsAsTabulated := by
  refine ⟨?w8, ?w16, ?w32, ?w64, ?w128, fun W => ⟨initValue_eq_ones W, xorOut_eq_ones W⟩⟩
  case w8 => decide
  case w16 => decide
  case w32 => decide
  case w64 => decide
  case w128 => decide

end Sys2Proof.Config
end

section
/-! Engines share nothing (R30): a command's effect as a function of its own two registers. -/

namespace Sys2Proof.Machine

/-- What a command leaves in its engine is a function of REG_W and POLY_W alone: the old response is not read (R30, R66). -/
theorem exec_eq_next_setEngine_of_registers {i : Instr} {W : Width} (hi : i.width = W) :
    ∃ g : BitVec W.bits → BitVec W.bits → Engine W.bits,
      ∀ s, exec i s = .next (s.setEngine W (g (s.engine W).reg (s.engine W).poly)) := by
  obtain ⟨V, p, rfl⟩ | ⟨V, rfl⟩ | ⟨V, b, rfl⟩ | ⟨V, rfl⟩ := instr_cases i
  · obtain rfl : V = W := (width_createOf V p).symm.trans hi
    exact ⟨fun _ _ => Engine.create p, exec_createOf V p⟩
  · obtain rfl : V = W := (width_defaultOf V).symm.trans hi
    exact ⟨fun _ _ => Engine.create (Config.defaultPoly V), exec_defaultOf V⟩
  · obtain rfl : V = W := (width_updateOf V b).symm.trans hi
    exact ⟨fun r p => Engine.update ⟨r, p, none⟩ b, exec_updateOf V b⟩
  · obtain rfl : V = W := (width_finalizeOf V).symm.trans hi
    exact ⟨fun r p => Engine.finalize ⟨r, p, none⟩, exec_finalizeOf V⟩

/-- Settles O12: both runs put the same function of the same two registers in the command's engine; the frame is that of
`State.setEngine`. -/
theorem enginesShareNoState : Obligations.EnginesShareNoState := by
  intro i s s' hreg hpoly
  obtain ⟨g, hg⟩ := exec_eq_next_setEngine_of_registers (i := i) rfl
  refine ⟨_, _, hg s, hg s', ?_, fun W hW => State.engine_setEngine_ne s hW _, State.pending_setEngine s _ _⟩
  rw [State.engine_setEngine, State.engine_setEngine, hreg, hpoly]

end Sys2Proof.Machine
end

section
/-! The reset state (R32), and reset as DEFAULT on every engine (R220). -/

namespace Sys2Proof.Machine

/-- The reset event leaves the reset state, the pending inputs apart. -/
theorem State.resetEngines_eq (s : State) : s.resetEngines = { State.reset with pending := s.pending } :=
  State.ext_engines (fun V => by simp) (by simp)

/-- DEFAULT on the five engines in turn is the reset event (R220). -/
theorem execAll_defaults_eq_resetEngines (s : State) :
    execAll [.default8, .default16, .default32, .default64, .default128] s = .next s.resetEngines := by
  change execAll (Width.all.map Instr.defaultOf) s = _
  simp only [Width.all, List.map, execAll, exec_defaultOf]
  rfl

/-- Settles O51: the accumulators have the all-ones values of `Config.widthConstantsAsTabulated`, the polynomials are
`Config.defaultPoly`'s, and five DEFAULT commands are the reset event. -/
theorem resetValues : Obligations.ResetValues := by
  obtain ⟨⟨ones8, -⟩, ⟨ones16, -⟩, ⟨ones32, -⟩, ⟨ones64, -⟩, ⟨ones128, -⟩, -⟩ := Config.widthConstantsAsTabulated
  refine ⟨ones8, rfl, ones16, rfl, ones32, rfl, ones64, rfl, ones128, rfl, fun s => ?_⟩
  rw [execAll_defaults_eq_resetEngines, State.resetEngines_eq]

end Sys2Proof.Machine
end

section
/-! Repeated commands (R49): FINALIZE observes, CREATE and DEFAULT overwrite, UPDATE accumulates. -/

namespace Sys2Proof.Machine

/-- A command that puts a fixed engine in place is idempotent: the second of two overwrites the first. -/
theorem execAll_twice_of_overwrites {i : Instr} {W : Width} {e : Engine W.bits}
    (h : ∀ s, exec i s = .next (s.setEngine W e)) (s : State) :
    execAll [i, i] s = .next (s.setEngine W e) := by
  rw [execAll_cons_of_next (h s), execAll_cons_of_next (h _), execAll_nil, State.setEngine_setEngine]

/-- Two UPDATE.W with the same byte update engine W twice, in place. -/
theorem execAll_updateOf_twice (W : Width) (b : Byte) (s : State) :
    execAll [Instr.updateOf W b, Instr.updateOf W b] s =
      .next (s.setEngine W (((s.engine W).update b).update b)) := by
  rw [execAll_cons_of_next (exec_updateOf W b s), execAll_cons_of_next (exec_updateOf W b _), execAll_nil,
    State.engine_setEngine, State.setEngine_setEngine]

/-- FINALIZE.W writes the output port of engine W and no register. -/
theorem sameRegisters_setEngine_finalize (W : Width) (s : State) :
    Claims.SameRegisters s (s.setEngine W (s.engine W).finalize) := by
  intro V
  by_cases hV : V = W
  · subst hV
    simp
  · simp [State.engine_setEngine_ne s hV]

/-- FINALIZE.W any number of times in a row: every response is the complement of the register it started from. -/
theorem responses_replicate_finalizeOf (W : Width) (n : Nat) (s : State) :
    responses W (List.replicate n (Instr.finalizeOf W)) s =
      List.replicate n ((s.engine W).reg ^^^ Config.xorOut W.bits) := by
  induction n generalizing s with
  | zero => rfl
  | succ n ih =>
    rw [List.replicate_succ, responses_cons_of_next W (exec_finalizeOf W s), ih]
    simp [List.replicate_succ]

/-- From reset, the second of two UPDATE.W 0x68 moves REG_W again. -/
theorem reg_update_twice_ne_reg_update_at_reset (W : Width) :
    (((State.reset.engine W).update 0x68#8).update 0x68#8).reg ≠ ((State.reset.engine W).update 0x68#8).reg := by
  cases W <;> decide +kernel

/-- Settles O13: the effect of each command twice in a row, by the lemma about its repetition; UPDATE.W 0x68 from reset shows
at every width that UPDATE is not idempotent. -/
theorem idempotencyOfTheCommands : Obligations.IdempotencyOfTheCommands := by
  refine ⟨?finalize, ?create, ?default, ?update, ?notIdempotent⟩
  case finalize =>
    exact fun W s => ⟨_, _, exec_finalizeOf W s, sameRegisters_setEngine_finalize W s,
      fun n => responses_replicate_finalizeOf W n s⟩
  case create =>
    exact fun W p s => ⟨_, execAll_twice_of_overwrites (exec_createOf W p) s, exec_createOf W p s⟩
  case default =>
    exact fun W s => ⟨_, execAll_twice_of_overwrites (exec_defaultOf W) s, exec_defaultOf W s⟩
  case update =>
    intro W b s
    exact ⟨_, execAll_updateOf_twice W b s, by simp⟩
  case notIdempotent =>
    intro W
    refine ⟨State.reset, 0x68#8, _, _, exec_updateOf W _ _, exec_updateOf W _ _, ?_⟩
    simpa only [State.engine_setEngine] using reg_update_twice_ne_reg_update_at_reset W

end Sys2Proof.Machine
end

section
/-! Encoding (R61 to R68): what port values decode to by their `op`, the decoder on words of the format's own length, and
the ports a command uses (R65). -/

namespace Sys2Proof

open Machine

variable {W : Width}

/-! ### Decoding by `op` -/

/-- R62: two bits name the four operations with no code left over. -/
theorem op_cases (c : BitVec 2) : c = 0b00#2 ∨ c = 0b01#2 ∨ c = 0b10#2 ∨ c = 0b11#2 := by
  revert c
  decide

theorem decodePorts_create {q : Ports W.bits} (h : q.op = 0b00#2) : decodePorts W q = Instr.createOf W q.polyIn := by
  rw [decodePorts, h]
  rfl

theorem decodePorts_default {q : Ports W.bits} (h : q.op = 0b01#2) : decodePorts W q = Instr.defaultOf W := by
  rw [decodePorts, h]
  rfl

theorem decodePorts_update {q : Ports W.bits} (h : q.op = 0b10#2) : decodePorts W q = Instr.updateOf W q.dataIn := by
  rw [decodePorts, h]
  rfl

theorem decodePorts_finalize {q : Ports W.bits} (h : q.op = 0b11#2) : decodePorts W q = Instr.finalizeOf W := by
  rw [decodePorts, h]
  rfl

@[simp] theorem createOf_inj {p p' : BitVec W.bits} : Instr.createOf W p = Instr.createOf W p' ↔ p = p' := by
  cases W <;> simp [Instr.createOf]

@[simp] theorem updateOf_inj {b b' : Byte} : Instr.updateOf W b = Instr.updateOf W b' ↔ b = b' := by
  cases W <;> simp [Instr.updateOf]

/-- Port samples that are the same command have the same `op`: the code is read off the command's operation. -/
theorem op_eq_of_decodePorts_eq {q q' : Ports W.bits} (h : decodePorts W q = decodePorts W q') : q.op = q'.op := by
  have hop : Op.ofCode q.op = Op.ofCode q'.op := by simpa using congrArg Instr.op h
  simpa using congrArg Op.code hop

/-- R65: what a port sample decodes to depends on `op` and on the port of the operand, and on nothing else. -/
theorem decodePorts_eq_iff {q q' : Ports W.bits} :
    decodePorts W q = decodePorts W q' ↔
      q.op = q'.op ∧ (q.op = 0b00#2 → q.polyIn = q'.polyIn) ∧ (q.op = 0b10#2 → q.dataIn = q'.dataIn) := by
  constructor
  · intro h
    have hop := op_eq_of_decodePorts_eq h
    refine ⟨hop, fun h0 => ?_, fun h2 => ?_⟩
    · rwa [decodePorts_create h0, decodePorts_create (hop ▸ h0), createOf_inj] at h
    · rwa [decodePorts_update h2, decodePorts_update (hop ▸ h2), updateOf_inj] at h
  · rintro ⟨hop, hpoly, hdata⟩
    obtain h | h | h | h := op_cases q.op
    · rw [decodePorts_create h, decodePorts_create (hop ▸ h), hpoly h]
    · rw [decodePorts_default h, decodePorts_default (hop ▸ h)]
    · rw [decodePorts_update h, decodePorts_update (hop ▸ h), hdata h]
    · rw [decodePorts_finalize h, decodePorts_finalize (hop ▸ h)]

/-! ### The bits of the word that a command uses -/

/-- Port values cut down to the bits set in `m`. -/
def Ports.and {n : Nat} (q m : Ports n) : Ports n :=
  { op := q.op &&& m.op, dataIn := q.dataIn &&& m.dataIn, polyIn := q.polyIn &&& m.polyIn }

/-- The word of the cut-down ports is the word cut down: each field has its own bits (R61). -/
theorem Ports.toNat_toWord_and {n : Nat} (q m : Ports n) :
    (q.and m).toWord.toNat = q.toWord.toNat &&& m.toWord.toNat := by
  simp only [Ports.toWord, Ports.and, BitVec.toNat_cast, ← BitVec.toNat_and, BitVec.and_append]

/-- R62: `op`, and the port of the operation's operand, all bits set. -/
def Ports.used (n : Nat) : Op → Ports n
  | .create => { op := BitVec.allOnes 2, dataIn := 0#8, polyIn := BitVec.allOnes n }
  | .default => { op := BitVec.allOnes 2, dataIn := 0#8, polyIn := 0#n }
  | .update => { op := BitVec.allOnes 2, dataIn := BitVec.allOnes 8, polyIn := 0#n }
  | .finalize => { op := BitVec.allOnes 2, dataIn := 0#8, polyIn := 0#n }

/-- The model's mask of the used bits is the word of the used ports. -/
theorem usedMask_eq_toNat_toWord (W : Width) (o : Op) : W.usedMask o = (Ports.used W.bits o).toWord.toNat := by
  cases W <;> cases o <;> rfl

theorem toNat_encode_createOf (W : Width) (p : BitVec W.bits) :
    (encode (Instr.createOf W p)).toNat = ({ op := 0b00#2, dataIn := 0#8, polyIn := p } : Ports W.bits).toWord.toNat := by
  cases W <;> rfl

theorem toNat_encode_defaultOf (W : Width) :
    (encode (Instr.defaultOf W)).toNat =
      ({ op := 0b01#2, dataIn := 0#8, polyIn := 0#W.bits } : Ports W.bits).toWord.toNat := by
  cases W <;> rfl

theorem toNat_encode_updateOf (W : Width) (b : Byte) :
    (encode (Instr.updateOf W b)).toNat =
      ({ op := 0b10#2, dataIn := b, polyIn := 0#W.bits } : Ports W.bits).toWord.toNat := by
  cases W <;> rfl

theorem toNat_encode_finalizeOf (W : Width) :
    (encode (Instr.finalizeOf W)).toNat =
      ({ op := 0b11#2, dataIn := 0#8, polyIn := 0#W.bits } : Ports W.bits).toWord.toNat := by
  cases W <;> rfl

/-- Encoding the command of a port sample writes the ports it uses, and zero on the others (R65). -/
theorem toNat_encode_decodePorts (q : Ports W.bits) :
    (encode (decodePorts W q)).toNat = (q.and (Ports.used W.bits (decodePorts W q).op)).toWord.toNat := by
  obtain h | h | h | h := op_cases q.op
  · rw [decodePorts_create h, toNat_encode_createOf]
    simp [Ports.and, Ports.used, h]
  · rw [decodePorts_default h, toNat_encode_defaultOf]
    simp [Ports.and, Ports.used, h]
  · rw [decodePorts_update h, toNat_encode_updateOf]
    simp only [op_updateOf, Ports.and, Ports.used, h, BitVec.and_allOnes, BitVec.and_zero]
  · rw [decodePorts_finalize h, toNat_encode_finalizeOf]
    simp [Ports.and, Ports.used, h]

/-- Settles O4: the command is a function of `op` and the used port, and encoding keeps the word's bits under the mask of the
used ports. -/
theorem unusedPortsAreIgnored : Obligations.UnusedPortsAreIgnored := by
  refine ⟨fun W q q' => decodePorts_eq_iff, fun W x => ?_⟩
  calc (encode (decode W x)).toNat
    _ = ((Ports.ofWord x).and (Ports.used W.bits (decode W x).op)).toWord.toNat := toNat_encode_decodePorts _
    _ = (Ports.ofWord x).toWord.toNat &&& (Ports.used W.bits (decode W x).op).toWord.toNat := Ports.toNat_toWord_and _ _
    _ = x.toNat &&& W.usedMask (decode W x).op := by rw [Ports.toWord_ofWord, usedMask_eq_toNat_toWord]

/-! ### Formats, and decoding as a total function -/

/-- Settles O1: at each width the length is a number and the field places are the definitions' own. -/
theorem commandFormatsPlaceTheirFields : Obligations.CommandFormatsPlaceTheirFields := by
  refine ⟨?w8, ?w16, ?w32, ?w64, ?w128⟩
  case w8 => exact ⟨rfl, fun _ => rfl, fun _ => rfl⟩
  case w16 => exact ⟨rfl, fun _ => rfl, fun _ => rfl⟩
  case w32 => exact ⟨rfl, fun _ => rfl, fun _ => rfl⟩
  case w64 => exact ⟨rfl, fun _ => rfl, fun _ => rfl⟩
  case w128 => exact ⟨rfl, fun _ => rfl, fun _ => rfl⟩

/-- The length of a format chooses its engine: no two lengths, whole-byte roundings included, coincide (log entry 6). -/
@[simp] theorem formatOfLength_wordBits (W : Width) : formatOfLength W.wordBits = some W := by
  cases W <;> rfl

/-- A word of the format's own length is never rejected (R68). -/
theorem decodeBits_wordBits (x : BitVec (W.bits + 10)) : decodeBits W.wordBits x.toNat = .ok (decode W x) := by
  have hx : x.toNat < 2 ^ W.wordBits := x.isLt
  simp [decodeBits, hx]

/-- Settles O2: the decoder accepts every word of the format, and the four clauses are decoding by `op` of the word's
ports. -/
theorem decodingIsTotalAndFollowsOp : Obligations.DecodingIsTotalAndFollowsOp := by
  intro W x
  exact ⟨decodeBits_wordBits x, width_decodePorts W _, decodePorts_create (q := .ofWord x),
    decodePorts_default (q := .ofWord x), decodePorts_update (q := .ofWord x), decodePorts_finalize (q := .ofWord x)⟩

end Sys2Proof
end

section
/-! Encoding and effect of CREATE.W, DEFAULT.W and FINALIZE.W, at any width (R90, R91, R94). -/

namespace Sys2Proof.Machine

open Claims

variable {W : Width}

/-- R67: the word's bits under the table's mask are the `op` of its ports, in place. -/
theorem op_ofWord_of_toNat_and_opMask {x : BitVec (W.bits + 10)} {c : BitVec 2}
    (h : x.toNat &&& W.opMask = c.toNat <<< (W.bits + 8)) : (Ports.ofWord x).op = c := by
  have hc : (Ports.ofWord x).op.toNat <<< (W.bits + 8) = c.toNat <<< (W.bits + 8) := by
    rw [← Ports.toNat_toWord_mask, Ports.toWord_ofWord]
    exact h
  rw [Nat.shiftLeft_eq, Nat.shiftLeft_eq] at hc
  exact BitVec.eq_of_toNat_eq (Nat.eq_of_mul_eq_mul_right (Nat.two_pow_pos _) hc)

theorem encodes_createOf (W : Width) :
    Encodes W W.opMask ((0b00#2).toNat <<< (W.bits + 8)) (fun x => Instr.createOf W (x.extractLsb' 0 W.bits)) :=
  fun _ hx => decodePorts_create (op_ofWord_of_toNat_and_opMask hx)

theorem encodes_defaultOf (W : Width) :
    Encodes W W.opMask ((0b01#2).toNat <<< (W.bits + 8)) (fun _ => Instr.defaultOf W) :=
  fun _ hx => decodePorts_default (op_ofWord_of_toNat_and_opMask hx)

theorem encodes_finalizeOf (W : Width) :
    Encodes W W.opMask ((0b11#2).toNat <<< (W.bits + 8)) (fun _ => Instr.finalizeOf W) :=
  fun _ hx => decodePorts_finalize (op_ofWord_of_toNat_and_opMask hx)

/-- The rule of CREATE.W at every width, given its worked example. -/
theorem createRule_of_example {exWord : Nat} {exPoly : BitVec W.bits}
    (hex : decode W (BitVec.ofNat (W.bits + 10) exWord) = Instr.createOf W exPoly) :
    CreateRule W (Instr.createOf W) (fun s e => s.setEngine W e) (Config.ones W.bits) W.opMask
      ((0b00#2).toNat <<< (W.bits + 8)) exWord exPoly :=
  ⟨encodes_createOf W, fun s p => exec_createOf W p s, hex⟩

/-- Settles O7: each width is the rule of CREATE.W at that width, in the rule's own numbers. -/
theorem createLoadsPolynomialAndAllOnes : Obligations.CreateLoadsPolynomialAndAllOnes := by
  refine ⟨?w8, ?w16, ?w32, ?w64, ?w128⟩
  case w8 => exact createRule_of_example (W := .w8) (by decide)
  case w16 => exact createRule_of_example (W := .w16) (by decide)
  case w32 => exact createRule_of_example (W := .w32) (by decide)
  case w64 => exact createRule_of_example (W := .w64) (by decide)
  case w128 => exact createRule_of_example (W := .w128) (by decide)

/-- The reset state is a fixed point of DEFAULT.W. -/
theorem exec_defaultOf_reset (W : Width) : exec (Instr.defaultOf W) State.reset = .next State.reset := by
  rw [exec_defaultOf, ← State.engine_reset, State.setEngine_self]

/-- The rule of DEFAULT.W at every width. -/
theorem defaultRule (W : Width) :
    DefaultRule W (Instr.defaultOf W) (Instr.createOf W) (fun s e => s.setEngine W e) (Config.ones W.bits)
      (Config.defaultPoly W) W.opMask ((0b01#2).toNat <<< (W.bits + 8)) :=
  ⟨encodes_defaultOf W, exec_defaultOf W, fun s => by rw [exec_defaultOf, exec_createOf], exec_defaultOf_reset W⟩

/-- Settles O8: each width is the rule of DEFAULT.W at that width, the constant of R24 in hexadecimal. -/
theorem defaultLoadsDefaultPolynomialAndAllOnes : Obligations.DefaultLoadsDefaultPolynomialAndAllOnes :=
  ⟨defaultRule .w8, defaultRule .w16, defaultRule .w32, defaultRule .w64, defaultRule .w128⟩

end Sys2Proof.Machine
end

section
/-! UPDATE.W of a byte sequence (R93), in two parts (R96). -/

namespace Sys2Proof.Machine

@[simp] theorem reg_foldl_update {W : Nat} (e : Engine W) (d : List Byte) :
    (d.foldl Engine.update e).reg = updateMessage e.reg e.poly d := by
  induction d generalizing e with
  | nil => rfl
  | cons b d ih => simp [ih]

@[simp] theorem poly_foldl_update {W : Nat} (e : Engine W) (d : List Byte) :
    (d.foldl Engine.update e).poly = e.poly := by
  induction d generalizing e with
  | nil => rfl
  | cons b d ih => simp [ih]

/-- R96: a left fold splits where the message does. -/
theorem updateMessage_append {W : Nat} (r p : BitVec W) (d₁ d₂ : List Byte) :
    updateMessage r p (d₁ ++ d₂) = updateMessage (updateMessage r p d₁) p d₂ := by
  induction d₁ generalizing r with
  | nil => rfl
  | cons b d₁ ih => exact ih (fold r p b)

@[simp] theorem updateCommands_cons (W : Width) (b : Byte) (d : List Byte) :
    updateCommands W (b :: d) = Instr.updateOf W b :: updateCommands W d := rfl

theorem updateCommands_append (W : Width) (d₁ d₂ : List Byte) :
    updateCommands W (d₁ ++ d₂) = updateCommands W d₁ ++ updateCommands W d₂ := List.map_append

/-- UPDATE.W of each byte updates engine W byte by byte and touches nothing else. -/
theorem execAll_updateCommands (W : Width) (d : List Byte) (s : State) :
    execAll (updateCommands W d) s = .next (s.setEngine W (d.foldl Engine.update (s.engine W))) := by
  induction d generalizing s with
  | nil => rw [List.foldl_nil, State.setEngine_self]; rfl
  | cons b d ih =>
    rw [updateCommands_cons, execAll_cons_of_next (exec_updateOf W b s), ih, State.engine_setEngine,
      State.setEngine_setEngine, List.foldl_cons]

/-- Settles O31: the commands of a sequence leave the fold of engine W, and nothing else changes. -/
theorem updateOfASequenceFoldsItInOrder : Obligations.UpdateOfASequenceFoldsItInOrder := by
  refine ⟨fun W d => rfl, fun W r p => ⟨updateMessage_nil r p, updateMessage_cons r p⟩, fun W d s => ?_⟩
  refine ⟨_, execAll_updateCommands W d s, ?reg, ?poly, ?frame, ?pending, ?empty⟩
  case reg => simp
  case poly => simp
  case frame => exact fun U hU => State.engine_setEngine_ne s hU _
  case pending => exact State.pending_setEngine s W _
  case empty =>
    rintro rfl
    exact State.setEngine_self s W

/-- Settles O32: the register folds in two parts, and a command sequence is carried out in two parts. -/
theorem streamingEquivalence : Obligations.StreamingEquivalence := by
  refine ⟨fun W r p d₁ d₂ => (updateMessage_append r p d₁ d₂).symm, fun W d₁ d₂ s => ?_⟩
  have h₁ := execAll_updateCommands W d₁ s
  refine ⟨_, _, h₁, execAll_updateCommands W d₂ _, ?_, ?_⟩
  · rw [updateCommands_append, execAll_append h₁, execAll_updateCommands]
  · simp [updateMessage_append]

end Sys2Proof.Machine
end

section
/-! The responses of a sequence (R50, R66), and FINALIZE.W within a message (R94, R98, R99). -/

namespace Sys2Proof.Machine

@[simp] theorem responses_nil (W : Width) (s : State) : responses W [] s = [] := rfl

/-- The responses of a sequence in two parts. -/
theorem responses_append (W : Width) {is : List Instr} {s t : State} (h : execAll is s = .next t) (js : List Instr) :
    responses W (is ++ js) s = responses W is s ++ responses W js t := by
  induction is generalizing s with
  | nil => cases h; rfl
  | cons i is ih =>
    obtain ⟨f, hf⟩ := exec_spec i
    rw [execAll_cons_of_next (hf s)] at h
    rw [List.cons_append, responses_cons_of_next W (hf s), responses_cons_of_next W (hf s), ih h, List.append_assoc]

/-- Engine W does not answer commands to other engines (R30). -/
theorem responses_eq_nil_of_width_ne {W : Width} {is : List Instr} (h : ∀ i ∈ is, i.width ≠ W) (s : State) :
    responses W is s = [] := by
  induction is generalizing s with
  | nil => rfl
  | cons i is ih =>
    obtain ⟨hi, his⟩ := List.forall_mem_cons.mp h
    obtain ⟨f, hf⟩ := exec_spec i
    rw [responses_cons_of_next W (hf s), if_neg hi, List.nil_append, ih his]

@[simp] theorem responses_createOf_cons (W : Width) (p : BitVec W.bits) (is : List Instr) (s : State) :
    responses W (Instr.createOf W p :: is) s = responses W is (s.setEngine W (Engine.create p)) := by
  simp [responses_cons_of_next W (exec_createOf W p s)]

@[simp] theorem responses_defaultOf_cons (W : Width) (is : List Instr) (s : State) :
    responses W (Instr.defaultOf W :: is) s =
      responses W is (s.setEngine W (Engine.create (Config.defaultPoly W))) := by
  simp [responses_cons_of_next W (exec_defaultOf W s)]

@[simp] theorem responses_updateOf_cons (W : Width) (b : Byte) (is : List Instr) (s : State) :
    responses W (Instr.updateOf W b :: is) s = responses W is (s.setEngine W ((s.engine W).update b)) := by
  simp [responses_cons_of_next W (exec_updateOf W b s)]

@[simp] theorem responses_finalizeOf_cons (W : Width) (is : List Instr) (s : State) :
    responses W (Instr.finalizeOf W :: is) s =
      ((s.engine W).reg ^^^ Config.xorOut W.bits) :: responses W is (s.setEngine W (s.engine W).finalize) := by
  simp [responses_cons_of_next W (exec_finalizeOf W s)]

/-- UPDATE.W gives no response; what follows the bytes answers from the folded engine. -/
@[simp] theorem responses_updateCommands_append (W : Width) (d : List Byte) (is : List Instr) (s : State) :
    responses W (updateCommands W d ++ is) s =
      responses W is (s.setEngine W (d.foldl Engine.update (s.engine W))) := by
  induction d generalizing s with
  | nil => simp [updateCommands]
  | cons b d ih =>
    rw [updateCommands_cons, List.cons_append, responses_updateOf_cons, ih, State.engine_setEngine,
      State.setEngine_setEngine, List.foldl_cons]

/-- Settles O34: on a fresh engine the register is the all-ones value that FINALIZE.W complements. -/
theorem emptyMessageGivesZero : Obligations.EmptyMessageGivesZero := by
  intro W p s
  refine ⟨?create, ?default, ?reset⟩
  case create => simp
  case default => simp
  case reset => simp

/-- Settles O35: FINALIZE.W leaves the register on which the bytes after it go on, and `updateMessage_append` joins the
two parts. -/
theorem messageContinuesAfterFinalize : Obligations.MessageContinuesAfterFinalize := by
  intro W d₁ d₂ s
  simp [updateMessage_append]

/-- FINALIZE.W repeats on the engine it leaves. -/
@[simp] theorem Engine.finalize_finalize {W : Nat} (e : Engine W) : e.finalize.finalize = e.finalize := rfl

/-- The rule of FINALIZE.W at every width, given the register and the result of its worked example. -/
theorem finalizeRule_of_example {W : Width} {exReg exResult : BitVec W.bits}
    (hreg : updateMessage (Config.ones W.bits) (Config.defaultPoly W) Claims.helloWorld = exReg)
    (hres : exReg ^^^ Config.ones W.bits = exResult) :
    Claims.FinalizeRule W (Instr.finalizeOf W) (fun s => s.engine W) (fun s e => s.setEngine W e) (Config.ones W.bits)
      W.opMask ((0b11#2).toNat <<< (W.bits + 8)) exReg exResult := by
  refine ⟨encodes_finalizeOf W, exec_finalizeOf W, ?fresh, ?repeated, ?worked⟩
  case fresh =>
    intro s hs
    rw [exec_finalizeOf, Engine.finalize, Config.xorOut_eq_ones, hs, BitVec.xor_self]
  case repeated =>
    intro s
    refine ⟨_, exec_finalizeOf W s, ?_⟩
    rw [exec_finalizeOf, State.engine_setEngine, Engine.finalize_finalize, State.setEngine_setEngine]
  case worked =>
    intro s
    refine ⟨_, (execAll_cons_of_next (exec_defaultOf W s) _).trans (execAll_updateCommands W _ _), ?_, ?_⟩
    · simpa using hreg
    · rw [exec_finalizeOf, Engine.finalize]
      simp [hreg, hres]

/-- Settles O10: each width is the rule of FINALIZE.W at that width; the example's register is computed by the fold. -/
theorem finalizeReturnsTheComplement : Obligations.FinalizeReturnsTheComplement := by
  refine ⟨?w8, ?w16, ?w32, ?w64, ?w128⟩
  case w8 => exact finalizeRule_of_example (W := .w8) (by decide +kernel) (by decide)
  case w16 => exact finalizeRule_of_example (W := .w16) (by decide +kernel) (by decide)
  case w32 => exact finalizeRule_of_example (W := .w32) (by decide +kernel) (by decide)
  case w64 => exact finalizeRule_of_example (W := .w64) (by decide +kernel) (by decide)
  case w128 => exact finalizeRule_of_example (W := .w128) (by decide +kernel) (by decide)

end Sys2Proof.Machine
end

section
/-! FINALIZE.W cannot be seen by what comes after it (R97): what an engine does next is a function of its registers. -/

namespace Sys2Proof.Machine

open Claims

/-- Engine `W` has the same registers in both states (its output apart). -/
def SameRegistersIn (W : Width) (s t : State) : Prop :=
  (s.engine W).reg = (t.engine W).reg ∧ (s.engine W).poly = (t.engine W).poly

variable {W : Width} {s s' : State}

theorem SameRegistersIn.symm (h : SameRegistersIn W s s') : SameRegistersIn W s' s := And.imp Eq.symm Eq.symm h

theorem SameRegistersIn.trans {s'' : State} (h : SameRegistersIn W s s') (h' : SameRegistersIn W s' s'') :
    SameRegistersIn W s s'' :=
  And.imp h.1.trans h.2.trans h'

/-- A command keeps two states alike in engine W; where it is engine W's own, also the output becomes the same. -/
theorem exec_congr_registersIn (h : SameRegistersIn W s s') (i : Instr) :
    ∃ t t', exec i s = .next t ∧ exec i s' = .next t' ∧ SameRegistersIn W t t' ∧
      (i.width = W → t.engine W = t'.engine W) := by
  obtain ⟨g, hg⟩ := exec_eq_next_setEngine_of_registers (i := i) rfl
  refine ⟨_, _, hg s, hg s', ?_⟩
  obtain ⟨hreg, hpoly⟩ := h
  by_cases hW : i.width = W
  · subst hW
    simp [SameRegistersIn, hreg, hpoly]
  · simp [SameRegistersIn, State.engine_setEngine_ne _ (Ne.symm hW), hreg, hpoly, hW]

/-- The registers of engine W determine its responses. -/
theorem responses_congr_registersIn (h : SameRegistersIn W s s') (is : List Instr) :
    responses W is s = responses W is s' := by
  induction is generalizing s s' with
  | nil => rfl
  | cons i is ih =>
    obtain ⟨t, t', ht, ht', hsame, hout⟩ := exec_congr_registersIn h i
    rw [responses_cons_of_next W ht, responses_cons_of_next W ht', ih hsame]
    by_cases hW : i.width = W
    · rw [hout hW]
    · rw [if_neg hW, if_neg hW]

/-- The registers of engine W determine its registers after any sequence. -/
theorem execAll_congr_registersIn (h : SameRegistersIn W s s') {is : List Instr} {t t' : State}
    (ht : execAll is s = .next t) (ht' : execAll is s' = .next t') : SameRegistersIn W t t' := by
  induction is generalizing s s' with
  | nil =>
    cases ht
    cases ht'
    exact h
  | cons i is ih =>
    obtain ⟨u, u', hu, hu', hsame, -⟩ := exec_congr_registersIn h i
    rw [execAll_cons_of_next hu] at ht
    rw [execAll_cons_of_next hu'] at ht'
    exact ih hsame ht ht'

/-- Any number of FINALIZE.V leave every register as it was. -/
theorem execAll_replicate_finalizeOf (V : Width) (n : Nat) (s : State) :
    ∃ t, execAll (List.replicate n (Instr.finalizeOf V)) s = .next t ∧ SameRegisters s t := by
  induction n generalizing s with
  | zero => exact ⟨s, rfl, fun _ => ⟨rfl, rfl⟩⟩
  | succ n ih =>
    obtain ⟨t, ht, hsame⟩ := ih (s.setEngine V (s.engine V).finalize)
    exact ⟨t, (execAll_cons_of_next (exec_finalizeOf V s) _).trans ht,
      fun W => SameRegistersIn.trans (sameRegisters_setEngine_finalize V s W) (hsame W)⟩

/-- The responses of any engine to any number of FINALIZE.V. -/
theorem responses_replicate_finalizeOf_ite (V W : Width) (n : Nat) (s : State) :
    responses W (List.replicate n (Instr.finalizeOf V)) s =
      if V = W then List.replicate n ((s.engine W).reg ^^^ Config.xorOut W.bits) else [] := by
  by_cases hV : V = W
  · subst hV
    rw [if_pos rfl, responses_replicate_finalizeOf]
  · rw [if_neg hV]
    refine responses_eq_nil_of_width_ne (fun i hi => ?_) s
    rw [List.eq_of_mem_replicate hi, width_finalizeOf]
    exact hV

/-- Settles O33: the inserted FINALIZE.V keep every register, and the registers determine what the rest of the sequence
does. -/
theorem finalizeCanBeInsertedAnywhere : Obligations.FinalizeCanBeInsertedAnywhere := by
  refine ⟨fun W s => ⟨_, responses_replicate_finalizeOf W 2 s⟩, fun V n is js s => ?_⟩
  obtain ⟨a, ha⟩ := execAll_next is s
  obtain ⟨b, hb, hab⟩ := execAll_replicate_finalizeOf V n a
  obtain ⟨t, ht⟩ := execAll_next js b
  obtain ⟨u, hu⟩ := execAll_next js a
  have hab' : execAll (is ++ List.replicate n (Instr.finalizeOf V)) s = .next b := (execAll_append ha _).trans hb
  refine ⟨t, u, (execAll_append hab' js).trans ht, (execAll_append ha js).trans hu,
    fun W => SameRegistersIn.symm (execAll_congr_registersIn (hab W) hu ht), fun W => ?_⟩
  refine ⟨responses W js a, (a.engine W).reg ^^^ Config.xorOut W.bits, responses_append W ha js, ?_⟩
  rw [responses_append W hab' js, responses_append W ha, responses_replicate_finalizeOf_ite,
    ← responses_congr_registersIn (hab W)]

end Sys2Proof.Machine
end

section
/-! What can change POLY_W (R102, R103), and that the checksum depends on it (R101). -/

namespace Sys2Proof.Machine

variable {W : Width} {s s' t : State}

/-- Everything a command can do to engine W: nothing, or the one of R90, R91, R92 and R94 that its operation names. -/
theorem engine_exec_cases {i : Instr} (h : exec i s = .next t) (W : Width) :
    (i.width ≠ W ∧ t.engine W = s.engine W) ∨
      (i.width = W ∧ (i.op = .create ∨ i.op = .default) ∧ ∃ p, t.engine W = Engine.create p) ∨
      (i.width = W ∧ i.op = .update ∧ ∃ b, t.engine W = (s.engine W).update b) ∨
      (i.width = W ∧ i.op = .finalize ∧ t.engine W = (s.engine W).finalize) := by
  by_cases hW : i.width = W
  · right
    obtain ⟨V, p, rfl⟩ | ⟨V, rfl⟩ | ⟨V, b, rfl⟩ | ⟨V, rfl⟩ := instr_cases i
    · obtain rfl : V = W := by simpa using hW
      cases (exec_createOf V p s).symm.trans h
      exact .inl ⟨hW, .inl (op_createOf V p), p, State.engine_setEngine s V _⟩
    · obtain rfl : V = W := by simpa using hW
      cases (exec_defaultOf V s).symm.trans h
      exact .inl ⟨hW, .inr (op_defaultOf V), _, State.engine_setEngine s V _⟩
    · obtain rfl : V = W := by simpa using hW
      cases (exec_updateOf V b s).symm.trans h
      exact .inr (.inl ⟨hW, op_updateOf V b, b, State.engine_setEngine s V _⟩)
    · obtain rfl : V = W := by simpa using hW
      cases (exec_finalizeOf V s).symm.trans h
      exact .inr (.inr ⟨hW, op_finalizeOf V, State.engine_setEngine s V _⟩)
  · obtain ⟨f, hf⟩ := exec_spec i
    cases (hf s).symm.trans h
    exact .inl ⟨hW, State.engine_setEngine_ne s (Ne.symm hW) _⟩

/-- Only CREATE.W and DEFAULT.W can change POLY_W (R102). -/
theorem poly_exec_of_op_ne {i : Instr} (h : exec i s = .next t)
    (hi : i.width = W → i.op ≠ .create ∧ i.op ≠ .default) : (t.engine W).poly = (s.engine W).poly := by
  obtain ⟨-, he⟩ | ⟨hW, hop | hop, -⟩ | ⟨-, -, b, he⟩ | ⟨-, -, he⟩ := engine_exec_cases h W
  · rw [he]
  · exact absurd hop (hi hW).1
  · exact absurd hop (hi hW).2
  · rw [he, Engine.update_poly]
  · rw [he, Engine.finalize_poly]

/-- A command that changes POLY_W sets REG_W to all-ones (R103). -/
theorem reg_exec_of_poly_ne {i : Instr} (h : exec i s = .next t) (hp : (t.engine W).poly ≠ (s.engine W).poly) :
    (t.engine W).reg = Config.ones W.bits := by
  obtain ⟨-, he⟩ | ⟨-, -, p, he⟩ | ⟨-, -, b, he⟩ | ⟨-, -, he⟩ := engine_exec_cases h W
  · exact absurd (by rw [he]) hp
  · rw [he, Engine.create_reg, Config.initValue_eq_ones]
  · exact absurd (by rw [he, Engine.update_poly]) hp
  · exact absurd (by rw [he, Engine.finalize_poly]) hp

/-- Settles O38: induction on the sequence, each command keeping POLY_W. -/
theorem polynomialIsConstantWithinAnInstance : Obligations.PolynomialIsConstantWithinAnInstance := by
  intro W is s h
  induction is generalizing s with
  | nil => exact ⟨s, rfl, rfl⟩
  | cons i is ih =>
    obtain ⟨hi, his⟩ := List.forall_mem_cons.mp h
    obtain ⟨f, hf⟩ := exec_spec i
    obtain ⟨t, ht, hpoly⟩ := ih _ his
    exact ⟨t, (execAll_cons_of_next (hf s) is).trans ht, hpoly.trans (poly_exec_of_op_ne (hf s) hi)⟩

/-- Engine W sees only its own commands of a sequence (R51). -/
theorem engine_execAll_filter (hs : s.engine W = s'.engine W) {is : List Instr} {u : State}
    (ht : execAll is s = .next t) (hu : execAll (is.filter fun i => i.width = W) s' = .next u) :
    t.engine W = u.engine W := by
  induction is generalizing s s' with
  | nil =>
    cases ht
    cases hu
    exact hs
  | cons i is ih =>
    obtain ⟨f, hf⟩ := exec_spec i
    rw [execAll_cons_of_next (hf s)] at ht
    by_cases hW : i.width = W
    · subst hW
      rw [List.filter_cons_of_pos (by simp), execAll_cons_of_next (hf s')] at hu
      exact ih (by simp [hs]) ht hu
    · rw [List.filter_cons_of_neg (by simpa using hW)] at hu
      exact ih ((State.engine_setEngine_ne s (Ne.symm hW) _).trans hs) ht hu

/-- The commands of an instant that are engine W's are those on its own port. -/
theorem filter_instantCommands (c : Instant) (W : Width) :
    (instantCommands c).filter (fun i => i.width = W) = (c.port W).map (decodePorts W) := by
  simp only [instantCommands, Width.all, List.flatMap_cons, List.flatMap_nil, List.filter_append, List.filter_map]
  cases W <;> simp [Function.comp_def]

/-- At an instant with at most one command for each engine, engine W is left as by its own command, or as it was. -/
theorem engine_instantCommands {c : Instant} (hc : c.wf = true) (h : execAll (instantCommands c) s = .next t)
    (W : Width) : t.engine W = s.engine W ∨ ∃ i u, exec i s = .next u ∧ t.engine W = u.engine W := by
  have hlen := (instant_wf_iff c).mp hc W
  obtain ⟨u, hu⟩ := execAll_next ((instantCommands c).filter fun i => i.width = W) s
  have htu := engine_execAll_filter rfl h hu
  rw [filter_instantCommands] at hu
  match hport : c.port W, hlen with
  | [], _ =>
    rw [hport] at hu
    cases hu
    exact .inl htu
  | [q], _ =>
    obtain ⟨f, hf⟩ := exec_spec (decodePorts W q)
    rw [hport, List.map_singleton, execAll_cons_of_next (hf s)] at hu
    cases hu
    exact .inr ⟨_, _, hf s, htu⟩

/-- Settles O39: CREATE.W and DEFAULT.W put a fresh engine in place; in a step POLY_W can change by the reset event or
by engine W's own command, and each sets the register. -/
theorem polynomialChangeRestartsTheMessage : Obligations.PolynomialChangeRestartsTheMessage := by
  refine ⟨fun W p s => ⟨⟨_, exec_createOf W p s, State.engine_setEngine s W _⟩,
    ⟨_, exec_defaultOf W s, State.engine_setEngine s W _⟩⟩, fun s t W h hp => ?_⟩
  obtain ⟨-, rfl⟩ | ⟨rest, -, rfl⟩ | ⟨c, rest, -, hc, ht⟩ := step_cases h
  · exact absurd (by simp) hp
  · simp
  · have hpoly : ((({ s with pending := rest } : State).quiet).engine W).poly = (s.engine W).poly := by simp
    rw [← hpoly] at hp
    obtain he | ⟨i, u, hu, he⟩ := engine_instantCommands hc ht W
    · exact absurd (by rw [he]) hp
    · rw [he] at hp ⊢
      exact reg_exec_of_poly_ne hu hp

/-- R101's perturbation: the lowest bit of the default polynomial flipped changes the checksum of "hello world". -/
theorem crc_helloWorld_ne_of_lowest_bit_flipped (W : Width) :
    crc (Config.defaultPoly W) Claims.helloWorld ≠ crc (Config.defaultPoly W ^^^ 1#W.bits) Claims.helloWorld := by
  cases W <;> decide +kernel

/-- Settles O37: the default polynomial and the same with its lowest bit flipped, both nonzero. -/
theorem checksumDependsOnThePolynomial : Obligations.ChecksumDependsOnThePolynomial := by
  intro W
  refine ⟨_, _, _, ?_, ?_, List.cons_ne_nil _ _, crc_helloWorld_ne_of_lowest_bit_flipped W⟩
  · cases W <;> decide
  · cases W <;> decide

end Sys2Proof.Machine
end

section
/-! Align, the bit step and the byte fold (R110 to R113), at every width. -/

namespace Sys2Proof.Machine

variable {W : Nat}

theorem align_eq_xor_alignByte (r : BitVec W) (b : Byte) : align r b = r ^^^ alignByte W b := rfl

theorem alignByte_eq_shiftLeft (W : Nat) (b : Byte) : alignByte W b = (b.setWidth W) <<< (W - 8) := rfl

/-- The top eight bits of the aligned byte are the byte (R64). -/
theorem extractLsb'_top_alignByte (hW : 8 ≤ W) (b : Byte) : (alignByte W b).extractLsb' (W - 8) 8 = b := by
  refine BitVec.eq_of_getLsbD_eq fun i hi => ?_
  have hin : W - 8 + i < W := by omega
  rw [BitVec.getLsbD_extractLsb', getLsbD_alignByte, Nat.add_sub_cancel_left]
  simp [hi, hin]

/-- The aligned byte is zero below its top eight bits. -/
theorem extractLsb'_low_alignByte (W : Nat) (b : Byte) : (alignByte W b).extractLsb' 0 (W - 8) = 0#(W - 8) := by
  refine BitVec.eq_of_getLsbD_eq fun i hi => ?_
  have hlow : ¬ (W - 8 ≤ i ∧ i < W) := fun h => absurd hi (Nat.not_lt.mpr h.1)
  rw [BitVec.getLsbD_extractLsb', Nat.zero_add, getLsbD_alignByte, decide_eq_false hlow]
  simp

/-- Settles O15: extraction passes through the xor of R110, and the aligned byte is the byte on top of zeros. -/
theorem alignChangesTheTopByteOnly : Obligations.AlignChangesTheTopByteOnly := by
  intro W r b hW
  refine ⟨rfl, ?top, ?low⟩
  case top => rw [align_eq_xor_alignByte, BitVec.extractLsb'_xor, extractLsb'_top_alignByte hW]
  case low => rw [align_eq_xor_alignByte, BitVec.extractLsb'_xor, extractLsb'_low_alignByte, BitVec.xor_zero]

/-- The feedback bit is the library's most significant bit. -/
theorem msb_eq_bitVec_msb (r : BitVec W) : msb r = r.msb := (BitVec.msb_eq_getLsbD_last r).symm

/-- The mask test of R111 reads the feedback bit. -/
theorem and_msbMask (r : BitVec W) : r &&& Config.msbMask W = if msb r then Config.msbMask W else 0#W :=
  BitVec.and_twoPow r (W - 1)

@[simp] theorem msb_msbMask (hW : 0 < W) : msb (Config.msbMask W) = true := by
  rw [msb_eq_bitVec_msb, Config.msbMask, ← BitVec.twoPow_eq, BitVec.msb_twoPow]
  simpa using hW

/-- The mask test fails exactly where the feedback bit is clear; a mask of positive width is not zero. -/
theorem and_msbMask_eq_zero_iff (hW : 0 < W) (r : BitVec W) : r &&& Config.msbMask W = 0#W ↔ msb r = false := by
  rw [and_msbMask]
  cases msb r with
  | false => simp
  | true =>
    have hmask : Config.msbMask W ≠ 0#W := fun h => by simpa [h, msb] using msb_msbMask hW
    simp [hmask]

@[simp] theorem bitStep_zero (p : BitVec W) : bitStep 0#W p = 0#W := by
  rw [bitStep_of_not_msb (by simp [msb]), BitVec.zero_shiftLeft]

@[simp] theorem bitStep_zero_poly (r : BitVec W) : bitStep r 0#W = r <<< 1 := by
  cases h : msb r with
  | false => exact bitStep_of_not_msb h
  | true => rw [bitStep_of_msb h, BitVec.xor_zero]

/-- The shift discards the tested bit: of the mask nothing is left. -/
theorem msbMask_shiftLeft_one (hW : 0 < W) : Config.msbMask W <<< 1 = 0#W := by
  rw [Config.msbMask, ← BitVec.shiftLeft_add, Nat.sub_add_cancel hW, BitVec.shiftLeft_eq_zero (Nat.le_refl W)]

theorem bitStep_msbMask (hW : 0 < W) (p : BitVec W) : bitStep (Config.msbMask W) p = p := by
  rw [bitStep_of_msb (msb_msbMask hW), msbMask_shiftLeft_one hW, BitVec.zero_xor]

/-- Settles O16: the mask test is the feedback bit of `bitStep`. -/
theorem bitStepShiftsAndXorsOnTopBit : Obligations.BitStepShiftsAndXorsOnTopBit := by
  intro W r p hW
  have htest := and_msbMask_eq_zero_iff hW r
  exact ⟨fun h => bitStep_of_msb ((Bool.not_eq_false _).mp (mt htest.mpr h)),
    fun h => bitStep_of_not_msb (htest.mp h), bitStep_zero p, bitStep_msbMask hW p, bitStep_zero_poly r⟩

/-- R113: a left shift multiplies by a power of two, modulo 2^W. -/
theorem toNat_shiftLeft_eq_mul_mod (v : BitVec W) (n : Nat) : (v <<< n).toNat = v.toNat * 2 ^ n % 2 ^ W := by
  rw [BitVec.toNat_shiftLeft, Nat.shiftLeft_eq]

/-- The feedback bit is set exactly in the upper half of the register's values. -/
theorem msb_eq_decide_le_toNat (r : BitVec W) : msb r = decide (2 ^ (W - 1) ≤ r.toNat) :=
  (msb_eq_bitVec_msb r).trans (BitVec.msb_eq_decide r)

theorem toNat_bitStep (r p : BitVec W) :
    (bitStep r p).toNat =
      if 2 ^ (W - 1) ≤ r.toNat then (r.toNat * 2 ^ 1 % 2 ^ W) ^^^ p.toNat else r.toNat * 2 ^ 1 % 2 ^ W := by
  have hmsb := msb_eq_decide_le_toNat r
  by_cases h : 2 ^ (W - 1) ≤ r.toNat
  · rw [if_pos h, bitStep_of_msb (hmsb.trans (decide_eq_true h)), BitVec.toNat_xor, toNat_shiftLeft_eq_mul_mod]
  · rw [if_neg h, bitStep_of_not_msb (hmsb.trans (decide_eq_false h)), toNat_shiftLeft_eq_mul_mod]

theorem toNat_align (hW : 8 ≤ W) (r : BitVec W) (b : Byte) :
    (align r b).toNat = r.toNat ^^^ (b.toNat * 2 ^ (W - 8) % 2 ^ W) := by
  rw [align_eq_xor_alignByte, BitVec.toNat_xor, alignByte_eq_shiftLeft, toNat_shiftLeft_eq_mul_mod,
    BitVec.toNat_setWidth_of_le hW]

/-- Settles O17: both shifts by `toNat_shiftLeft_eq_mul_mod`, the branch of the bit step by the register's value. -/
theorem shiftsTruncateToTheWidth : Obligations.ShiftsTruncateToTheWidth :=
  ⟨fun _ r p _ => toNat_bitStep r p, fun _ r b hW => toNat_align hW r b⟩

/-- Settles O18: `bitSteps` unrolled eight times on the aligned register, and the register that UPDATE.W leaves. -/
theorem foldIsAlignThenEightBitSteps : Obligations.FoldIsAlignThenEightBitSteps := by
  refine ⟨fun W r p b => ?steps, fun W b s => ⟨_, exec_updateOf W b s, ?reg⟩⟩
  case steps => simp only [fold_eq_bitSteps, bitSteps_succ, bitSteps_zero, align_eq_xor_alignByte]
  case reg => rw [State.engine_setEngine, Engine.update_reg]

end Sys2Proof.Machine
end

section
/-! UPDATE.W (R92, R143): the rule's loop is the model's fold, and a byte that equals the register's top byte gives no
feedback. -/

namespace Sys2Proof.Machine

open Claims

section
variable {W : Nat}

/-- The rule's mask test is the test of the feedback bit (R111). -/
theorem loopTurn_msbMask (hW : 0 < W) (p t : BitVec W) : loopTurn (Config.msbMask W) p t = bitStep t p := by
  have htest := and_msbMask_eq_zero_iff hW t
  cases hmsb : msb t with
  | false => rw [bitStep_of_not_msb hmsb, loopTurn, if_neg (not_not_intro (htest.mpr hmsb))]
  | true => rw [bitStep_of_msb hmsb, loopTurn, if_pos (mt htest.mp (by simp [hmsb]))]

/-- The rule's loop is the model's sequence of bit steps. -/
theorem loopTurns_msbMask (hW : 0 < W) (p : BitVec W) (n : Nat) (t : BitVec W) :
    loopTurns (Config.msbMask W) p n t = bitSteps p n t := by
  induction n with
  | zero => rfl
  | succ n ih => rw [loopTurns, ih, loopTurn_msbMask hW, bitSteps_succ_last]

/-- While the bits shifted out are zero there is no feedback: the steps only shift. -/
theorem bitSteps_eq_shiftLeft (p u : BitVec W) (n : Nat) (h : ∀ i < n, u.getMsbD i = false) :
    bitSteps p n u = u <<< n := by
  induction n with
  | zero => rw [bitSteps_zero, BitVec.shiftLeft_zero]
  | succ n ih =>
    have hmsb : msb (u <<< n) = false := by
      rw [msb_eq_bitVec_msb, BitVec.msb_shiftLeft, h n (Nat.lt_succ_self n)]
    rw [bitSteps_succ_last, ih fun i hi => h i (Nat.lt_succ_of_lt hi), bitStep_of_not_msb hmsb, BitVec.shiftLeft_add]

/-- A byte's turns shift the aligned byte out. -/
theorem alignByte_shiftLeft_eight (hW : 8 ≤ W) (b : Byte) : alignByte W b <<< 8 = 0#W := by
  rw [alignByte_eq_shiftLeft, ← BitVec.shiftLeft_add, Nat.sub_add_cancel hW, BitVec.shiftLeft_eq_zero (Nat.le_refl W)]

/-- A byte equal to the register's top byte clears it, so the fold is a shift by a byte, whatever the polynomial (R126). -/
theorem fold_topByte (hW : 8 ≤ W) (r p : BitVec W) : fold r p (topByte r) = r <<< 8 := by
  have htop : (align r (topByte r)).extractLsb' (W - 8) 8 = 0#8 := by
    obtain ⟨-, hxor, -⟩ := alignChangesTheTopByteOnly W r (topByte r) hW
    rw [hxor, topByte, BitVec.xor_self]
  have hzero : ∀ i < 8, (align r (topByte r)).getMsbD i = false := by
    intro i hi
    have hbit : ((align r (topByte r)).extractLsb' (W - 8) 8).getLsbD (7 - i) = false := by
      rw [htop, BitVec.getLsbD_zero]
    have hplace : W - 8 + (7 - i) = W - 1 - i := by omega
    have hlt : 7 - i < 8 := by omega
    rw [BitVec.getLsbD_extractLsb', hplace, decide_eq_true hlt, Bool.true_and] at hbit
    rw [BitVec.getMsbD_eq_getLsbD, hbit, Bool.and_false]
  calc fold r p (topByte r)
    _ = align r (topByte r) <<< 8 := bitSteps_eq_shiftLeft p _ 8 hzero
    _ = r <<< 8 := by
      rw [align_eq_xor_alignByte, BitVec.shiftLeft_xor_distrib, alignByte_shiftLeft_eight hW, BitVec.xor_zero]

/-- UPDATE.W of the register's top byte shifts the register by a byte (R126). -/
theorem Engine.update_topByte (hW : 8 ≤ W) (e : Engine W) :
    e.update (topByte e.reg) = { reg := e.reg <<< 8, poly := e.poly, crcOut := none } :=
  Engine.ext_fields (fold_topByte hW e.reg e.poly) rfl rfl

end

theorem eight_le_bits (W : Width) : 8 ≤ W.bits := by cases W <;> decide

theorem encodes_updateOf (W : Width) :
    Encodes W W.opMask ((0b10#2).toNat <<< (W.bits + 8)) (fun x => Instr.updateOf W (x.extractLsb' W.bits 8)) :=
  fun _ hx => decodePorts_update (op_ofWord_of_toNat_and_opMask hx)

/-- The rule of UPDATE.W at every width, given its worked example: the example's word, the register before each bit step
and after the last, and the register after the next byte. -/
theorem updateRule_of_example {W : Width} {exWord : Nat} {trace : List (BitVec W.bits)} {next : BitVec W.bits}
    (hword : decode W (BitVec.ofNat (W.bits + 10) exWord) = Instr.updateOf W 0x68#8)
    (htrace : (List.range 9).map (fun n =>
      bitSteps (Config.defaultPoly W) n (align (Config.ones W.bits) 0x68#8)) = trace)
    (hnext : updateMessage (Config.ones W.bits) (Config.defaultPoly W) [0x68#8, 0x65#8] = next) :
    UpdateRule W (Instr.updateOf W) (fun s => s.engine W) (fun s e => s.setEngine W e) (Config.alignShift W.bits)
      (Config.msbMask W.bits) W.opMask ((0b10#2).toNat <<< (W.bits + 8)) exWord (Config.ones W.bits)
      (Config.defaultPoly W) trace next := by
  have hW := eight_le_bits W
  have hloop (p : BitVec W.bits) (n : Nat) (r : BitVec W.bits) (b : Byte) :
      loopTurns (Config.msbMask W.bits) p n (r ^^^ (b.setWidth W.bits <<< Config.alignShift W.bits)) =
        bitSteps p n (align r b) :=
    loopTurns_msbMask (Nat.lt_of_lt_of_le (by decide) hW) p n _
  simp only [UpdateRule, hloop]
  refine ⟨encodes_updateOf W, fun s b => exec_updateOf W b s, ?topByte, hword, htrace, hnext⟩
  rintro s _ rfl
  rw [exec_updateOf, ← topByte, Engine.update_topByte hW]

/-- Settles O9: each width is the rule of UPDATE.W at that width, the worked example computed by the bit steps. -/
theorem updateFoldsOneByte : Obligations.UpdateFoldsOneByte := by
  refine ⟨?w8, ?w16, ?w32, ?w64, ?w128⟩
  case w8 => exact updateRule_of_example (W := .w8) (by decide) (by decide +kernel) (by decide +kernel)
  case w16 => exact updateRule_of_example (W := .w16) (by decide) (by decide +kernel) (by decide +kernel)
  case w32 => exact updateRule_of_example (W := .w32) (by decide) (by decide +kernel) (by decide +kernel)
  case w64 => exact updateRule_of_example (W := .w64) (by decide) (by decide +kernel) (by decide +kernel)
  case w128 => exact updateRule_of_example (W := .w128) (by decide) (by decide +kernel) (by decide +kernel)

end Sys2Proof.Machine
end

section
/-! The reset event as an input of the block (R220). -/

namespace Sys2Proof.Machine

/-- A pending reset event is taken, whatever the state of the engines. -/
theorem step_of_pending_reset {s : State} {rest : List Input} (h : s.pending = .reset :: rest) :
    step s = .next ({ s with pending := rest } : State).resetEngines := by
  unfold step takeInput
  rw [h]

/-- Settles O52: the step answers `resetEngines`, which is the five DEFAULT commands in turn and leaves every engine freshly
created with its default polynomial. -/
theorem resetEventIsDefaultOnEveryEngine : Obligations.ResetEventIsDefaultOnEveryEngine := by
  intro s rest h
  refine ⟨_, step_of_pending_reset h, State.pending_resetEngines _, execAll_defaults_eq_resetEngines _, fun W => ?_⟩
  rw [State.engine_resetEngines]
  exact ⟨(Engine.create_reg _).trans (Config.initValue_eq_ones _), Engine.create_poly _, Engine.create_crcOut _⟩

end Sys2Proof.Machine
end

section
/-! The round trip of encoding and decoding (R61, R68), and the rows of the opcode table (R67). -/

namespace Sys2Proof

open Machine Claims

/-- A command's own ports decode to it: its `op` names its operation, the used port holds its operand. -/
@[simp] theorem decodePorts_encodePorts (i : Instr) : decodePorts i.width (encodePorts i) = i := by
  obtain ⟨W, p, rfl⟩ | ⟨W, rfl⟩ | ⟨W, b, rfl⟩ | ⟨W, rfl⟩ := instr_cases i
  · cases W <;> rfl
  · cases W <;> rfl
  · cases W <;> rfl
  · cases W <;> rfl

/-- The word holds the ports, so decoding a command's word is decoding its ports. -/
@[simp] theorem decode_encode (i : Instr) : decode i.width (encode i) = i := by
  rw [decode, encode, Ports.ofWord_toWord, decodePorts_encodePorts]

/-- A word of the format's own length is a table word, read as the decoder reads it. -/
theorem decodeTableWord_wordBits {W : Width} (x : BitVec (W.bits + 10)) :
    decodeTableWord W.wordBits x.toNat = some (decode W x) := by
  rw [decodeTableWord, decodeBits_wordBits]

/-- Settles O5: the ports decode to the command they were made from, and the word and the table word carry the ports. -/
theorem everyCommandDecodesFromItsEncoding : Obligations.EveryCommandDecodesFromItsEncoding := by
  intro i _
  refine ⟨decode_encode i, decodePorts_encodePorts i, ?_⟩
  rw [decodeTableWord_wordBits, decode_encode]

/-- Every row of the table has the format's `op` field as its mask and the operation's code, in place, as its match. -/
theorem opcodeTable_mask_match {row : TableRow} (h : row ∈ opcodeTable) :
    row.mask = row.engine.opMask ∧ row.matchBits = row.op.code.toNat <<< (row.engine.bits + 8) := by
  have hall : ∀ row ∈ opcodeTable,
      row.mask = row.engine.opMask ∧ row.matchBits = row.op.code.toNat <<< (row.engine.bits + 8) := by decide
  exact hall row h

/-- R67 at any width: the word under the mask is an operation's code in place exactly when the word is that operation. -/
theorem toNat_and_opMask_eq_iff {W : Width} (x : BitVec (W.bits + 10)) (o : Op) :
    x.toNat &&& W.opMask = o.code.toNat <<< (W.bits + 8) ↔ (decode W x).op = o := by
  rw [decode, op_decodePorts]
  constructor
  · intro h
    rw [op_ofWord_of_toNat_and_opMask h, Op.ofCode_code]
  · rintro rfl
    have hmask := Ports.toNat_toWord_mask (Ports.ofWord x)
    rwa [Ports.toWord_ofWord, ← Op.code_ofCode (Ports.ofWord x).op] at hmask

/-- Settles O3: the rows are the mask and match of R67, which read the word's operation. -/
theorem opcodeTableRowsSelectTheirCommands : Obligations.OpcodeTableRowsSelectTheirCommands := by
  intro row hrow x
  obtain ⟨hmask, hmatch⟩ := opcodeTable_mask_match hrow
  rw [hmask, hmatch]
  exact toNat_and_opMask_eq_iff x row.op

/-- Settles O6: ten closed words, decoded. -/
theorem listedWordsDecodeToTheirCommands : Obligations.ListedWordsDecodeToTheirCommands := by
  refine ⟨?create8, ?default8, ?update16, ?create16, ?update32, ?finalize32, ?create64, ?finalize64, ?default128,
    ?update128⟩
  case create8 => decide
  case default8 => decide
  case update16 => decide
  case create16 => decide
  case update32 => decide
  case finalize32 => decide
  case create64 => decide
  case finalize64 => decide
  case default128 => decide
  case update128 => decide

end Sys2Proof
end

section
/-! The invariant of the block (R94, R104, R52): every command keeps it, so every instant and every step does. -/

namespace Sys2Proof.Machine

variable {s t : State}

/-- An engine that gives no response answers for nothing. -/
theorem Engine.outputAgrees_of_crcOut_eq_none {W : Nat} {e : Engine W} (h : e.crcOut = none) :
    e.outputAgrees = true := by
  rw [outputAgrees, h]

/-- FINALIZE answers for the register as it stands (R94). -/
@[simp] theorem Engine.outputAgrees_finalize {W : Nat} (e : Engine W) : e.finalize.outputAgrees = true := by
  simp [outputAgrees]

/-- Every response on an output port is its register complemented (R104): the invariant's half about the engines. -/
def State.OutputsAgree (s : State) : Prop := ∀ W : Width, (s.engine W).outputAgrees = true

theorem State.inv_iff : s.Inv ↔ s.OutputsAgree ∧ s.singleIssuer = true := Iff.rfl

theorem State.outputsAgree_of_crcOut_eq_none (h : ∀ W, (s.engine W).crcOut = none) : s.OutputsAgree :=
  fun W => Engine.outputAgrees_of_crcOut_eq_none (h W)

theorem State.outputsAgree_quiet (s : State) : s.quiet.OutputsAgree :=
  State.outputsAgree_of_crcOut_eq_none fun W => by rw [State.engine_quiet, Engine.quiet_crcOut]

theorem State.outputsAgree_resetEngines (s : State) : s.resetEngines.OutputsAgree :=
  State.outputsAgree_of_crcOut_eq_none fun W => by rw [State.engine_resetEngines, Engine.create_crcOut]

/-- A command leaves its engine without a response or with FINALIZE's, and the other engines as they were. -/
theorem outputsAgree_exec {i : Instr} (h : exec i s = .next t) (hs : s.OutputsAgree) : t.OutputsAgree := by
  intro W
  obtain ⟨-, he⟩ | ⟨-, -, p, he⟩ | ⟨-, -, b, he⟩ | ⟨-, -, he⟩ := engine_exec_cases h W
  · rw [he]
    exact hs W
  · rw [he]
    exact Engine.outputAgrees_of_crcOut_eq_none (Engine.create_crcOut p)
  · rw [he]
    exact Engine.outputAgrees_of_crcOut_eq_none (Engine.update_crcOut _ b)
  · rw [he]
    exact Engine.outputAgrees_finalize _

theorem outputsAgree_execAll {is : List Instr} (h : execAll is s = .next t) (hs : s.OutputsAgree) :
    t.OutputsAgree := by
  induction is generalizing s with
  | nil =>
    cases h
    exact hs
  | cons i is ih =>
    obtain ⟨f, hf⟩ := exec_spec i
    rw [execAll_cons_of_next (hf s)] at h
    exact ih h (outputsAgree_exec (hf s) hs)

/-- A step starts the responses afresh, so whatever stood on the ports, each response after it answers for its register. -/
theorem outputsAgree_step (h : step s = .next t) : t.OutputsAgree := by
  obtain ⟨-, rfl⟩ | ⟨rest, -, rfl⟩ | ⟨c, rest, -, -, ht⟩ := step_cases h
  · exact State.outputsAgree_quiet s
  · exact State.outputsAgree_resetEngines _
  · exact outputsAgree_execAll ht (State.outputsAgree_quiet _)

/-- Commands leave the pending inputs alone. -/
theorem pending_execAll {is : List Instr} (h : execAll is s = .next t) : t.pending = s.pending := by
  induction is generalizing s with
  | nil =>
    cases h
    rfl
  | cons i is ih =>
    obtain ⟨f, hf⟩ := exec_spec i
    rw [execAll_cons_of_next (hf s)] at h
    rw [ih h, State.pending_setEngine]

/-- A step takes one input. -/
theorem pending_step (h : step s = .next t) : t.pending = s.pending.tail := by
  obtain ⟨hp, rfl⟩ | ⟨rest, hp, rfl⟩ | ⟨c, rest, hp, -, ht⟩ := step_cases h
  · rw [State.pending_quiet, hp, List.tail_nil]
  · rw [State.pending_resetEngines, hp, List.tail_cons]
  · rw [pending_execAll ht, State.pending_quiet, hp, List.tail_cons]

/-- A step answers a next state exactly when the input it takes is well formed (R52, R214). -/
theorem exists_step_next_iff : (∃ t, step s = .next t) ↔ ∀ x ∈ s.pending.head?, x.wf = true := by
  refine ⟨fun ⟨t, h⟩ => ?_, step_next_of_wf⟩
  obtain ⟨hp, -⟩ | ⟨rest, hp, -⟩ | ⟨c, rest, hp, hc, -⟩ := step_cases h
  · simp [hp]
  · simp [hp, Input.wf]
  · simp [hp, Input.wf, hc]

/-- The owners' rule for all pending inputs is the rule for the next one and for the others. -/
theorem singleIssuer_iff :
    s.singleIssuer = true ↔ (∀ x ∈ s.pending.head?, x.wf = true) ∧ s.pending.tail.all Input.wf = true := by
  rw [State.singleIssuer]
  cases s.pending with
  | nil => simp
  | cons x xs => simp

/-- Taking an input leaves the owners' rule for the others. -/
theorem singleIssuer_step (h : step s = .next t) (hs : s.singleIssuer = true) : t.singleIssuer = true := by
  obtain ⟨-, htail⟩ := singleIssuer_iff.mp hs
  rwa [State.singleIssuer, pending_step h]

/-- Settles O54: a step leaves responses that answer for their registers, and a shorter list of pending inputs. -/
theorem everyStepKeepsTheInvariant : Obligations.EveryStepKeepsTheInvariant :=
  fun _ _ hs h => State.inv_iff.mpr ⟨outputsAgree_step h, singleIssuer_step h (State.inv_iff.mp hs).2⟩

/-- Settles O53: at reset no engine gives a response and nothing is pending. -/
theorem resetSatisfiesTheInvariant : Obligations.ResetSatisfiesTheInvariant := by
  refine State.inv_iff.mpr ⟨State.outputsAgree_of_crcOut_eq_none fun W => ?_, rfl⟩
  rw [State.engine_reset, Engine.create_crcOut]

/-- Running on is one step, and running on from there. -/
theorem State.RunsOn.step (h : s.RunsOn) : ∃ t, Machine.step s = .next t ∧ t.RunsOn := by
  obtain ⟨t, ht⟩ : ∃ t, Machine.step s = .next t := by
    obtain ⟨u, hu⟩ := h 1
    cases hstep : Machine.step s with
    | next t => exact ⟨t, rfl⟩
    | fault r => exact nomatch r
    | refused r => exact nomatch (run_succ_of_refused hstep 0).symm.trans hu
  exact ⟨t, ht, fun n => run_succ_of_next ht n ▸ h (n + 1)⟩

/-- Owners that keep the single-issuer rule are never refused. -/
theorem runsOn_of_singleIssuer (h : s.singleIssuer = true) : s.RunsOn := by
  intro n
  induction n generalizing s with
  | zero => exact ⟨s, rfl⟩
  | succ n ih =>
    obtain ⟨t, ht⟩ := exists_step_next_iff.mpr (singleIssuer_iff.mp h).1
    rw [run_succ_of_next ht]
    exact ih (singleIssuer_step ht h)

/-- A block that runs on takes every pending input in its turn, so each of them is well formed. -/
theorem singleIssuer_of_runsOn (h : s.RunsOn) : s.singleIssuer = true := by
  induction hp : s.pending generalizing s with
  | nil => rw [State.singleIssuer, hp, List.all_nil]
  | cons x xs ih =>
    obtain ⟨t, ht, hrun⟩ := h.step
    have htail : s.pending.tail = t.pending := (pending_step ht).symm
    refine singleIssuer_iff.mpr ⟨exists_step_next_iff.mp ⟨t, ht⟩, ?_⟩
    rw [htail]
    exact ih hrun (by rw [← htail, hp, List.tail_cons])

/-- Settles O55: a refused instant ends every longer run, and nothing else does. -/
theorem blockRunsOnExactlyUnderSingleIssuers : Obligations.BlockRunsOnExactlyUnderSingleIssuers :=
  fun _ => ⟨singleIssuer_of_runsOn, runsOn_of_singleIssuer⟩

end Sys2Proof.Machine
end

section
/-! What a step answers, by the input it takes (R60, R214). -/

namespace Sys2Proof.Machine

variable {s : State} {c : Instant} {rest : List Input}

theorem step_of_pending_nil (h : s.pending = []) : step s = .next s.quiet := by
  unfold step takeInput
  rw [h]

theorem step_of_pending_commands (h : s.pending = .commands c :: rest) :
    step s = issue c ({ s with pending := rest } : State).quiet := by
  unfold step takeInput
  rw [h]

theorem issue_of_wf (h : c.wf = true) (s : State) : issue c s = execAll (instantCommands c) s := by
  rw [issue, (contendedEngine_eq_none_iff c).mpr h]

/-- An instant that is not well formed is refused, and the refusal names an engine with two commands or more (R214). -/
theorem issue_of_not_wf (h : ¬ c.wf = true) (s : State) :
    ∃ W, 2 ≤ (c.port W).length ∧ issue c s = .refused (.simultaneousCommands W) := by
  obtain ⟨W, hW⟩ := Option.ne_none_iff_exists'.mp (mt (contendedEngine_eq_none_iff c).mp h)
  have htwo : decide (2 ≤ (c.port W).length) = true :=
    List.find?_some (p := fun W => decide (2 ≤ (c.port W).length)) hW
  refine ⟨W, of_decide_eq_true htwo, ?_⟩
  rw [issue, hW]

theorem not_instant_wf_iff (c : Instant) : ¬ c.wf = true ↔ ∃ W, 2 ≤ (c.port W).length := by
  rw [instant_wf_iff, not_forall]
  exact exists_congr fun W => Nat.not_le

/-- Settles O43: there is no fault to stop with; a step answers unless its instant is not well formed, and `issue` refuses
exactly those. -/
theorem onlySimultaneousCommandsAreRefused : Obligations.OnlySimultaneousCommandsAreRefused := by
  intro s
  refine ⟨fun r => (nomatch r), ?answers, ?refusal⟩
  case answers =>
    rw [exists_step_next_iff]
    constructor
    · rintro h ⟨c, rest, W, hp, hW⟩
      have hwf : c.wf = true := h (.commands c) (by simp [hp])
      exact (not_instant_wf_iff c).mpr ⟨W, hW⟩ hwf
    · intro h x hx
      match x, hx with
      | .reset, _ => rfl
      | .commands c, hx =>
        by_contra hwf
        obtain ⟨W, hW⟩ := (not_instant_wf_iff c).mp hwf
        exact h ⟨c, _, W, List.eq_cons_of_mem_head? hx, hW⟩
  case refusal =>
    intro c rest hp hW
    rw [step_of_pending_commands hp]
    exact issue_of_not_wf ((not_instant_wf_iff c).mpr hW) _

/-! ### An instant with one command, and with none -/

theorem instant_wf_single (W : Width) (q : Ports W.bits) : (Instant.single W q).wf = true := by
  cases W <;> rfl

theorem instantCommands_single (W : Width) (q : Ports W.bits) :
    instantCommands (Instant.single W q) = [decodePorts W q] := by
  cases W <;> rfl

/-- One command alone is executed as the command it is. -/
theorem issue_single (W : Width) (q : Ports W.bits) (s : State) :
    issue (Instant.single W q) s = exec (decodePorts W q) s := by
  obtain ⟨f, hf⟩ := exec_spec (decodePorts W q)
  rw [issue_of_wf (instant_wf_single W q), instantCommands_single, execAll_cons_of_next (hf s), execAll_nil, hf s]

theorem step_of_pending_single {W : Width} {q : Ports W.bits}
    (h : s.pending = .commands (Instant.single W q) :: rest) :
    step s = exec (decodePorts W q) ({ s with pending := rest } : State).quiet :=
  (step_of_pending_commands h).trans (issue_single W q _)

/-- A format's length rounded up to whole bytes chooses the same engine (log entry 6). -/
@[simp] theorem formatOfLength_wholeBytes (W : Width) : formatOfLength ((W.wordBits + 7) / 8 * 8) = some W := by
  cases W <;> rfl

/-- A word presented under a length of its format puts its ports before the pending inputs. -/
theorem withFetchWord_of_formatOfLength {W : Width} {nbits : Nat} (h : formatOfLength nbits = some W) (s : State)
    (x : BitVec (W.bits + 10)) :
    s.withFetchWord nbits x.toNat =
      { s with pending := .commands (Instant.single W (Ports.ofWord x)) :: s.pending } := by
  have hx : x.toNat < 2 ^ W.wordBits := x.isLt
  simp [State.withFetchWord, presentWord, h, hx]

theorem step_withFetchWord {W : Width} {nbits : Nat} (h : formatOfLength nbits = some W) (s : State)
    (x : BitVec (W.bits + 10)) : step (s.withFetchWord nbits x.toNat) = exec (decode W x) s.quiet := by
  rw [withFetchWord_of_formatOfLength h, step_of_pending_single rfl, decode]

/-- Settles O41: the instant holds one command, and `withFetchWord` presents the word's ports. -/
theorem stepRunsThePresentedCommand : Obligations.StepRunsThePresentedCommand :=
  ⟨fun _ _ _ _ h => step_of_pending_single h, fun s W x =>
    ⟨step_withFetchWord (formatOfLength_wordBits W) s x, step_withFetchWord (formatOfLength_wholeBytes W) s x⟩⟩

/-- An instant without commands changes nothing. -/
theorem issue_empty (s : State) : issue {} s = .next s := issue_of_wf rfl s

/-- Settles O42: in both cases the step answers the quiet state. -/
theorem enginesHoldWhenNoCommandIsIssued : Obligations.EnginesHoldWhenNoCommandIsIssued := by
  refine ⟨fun s h => ⟨_, step_of_pending_nil h, h, State.engine_quiet s⟩, fun s rest h => ?_⟩
  refine ⟨_, (step_of_pending_commands h).trans (issue_empty _), rfl, fun W => ?_⟩
  rw [State.engine_quiet, State.engine_withPending]

end Sys2Proof.Machine
end

section
/-! The engines run independently (R30, R51), and in order (R50). -/

namespace Sys2Proof.Machine

open Claims

variable {W : Width} {s s' t : State}

/-- Settles O11: a command replaces its engine, and that is a next state. -/
theorem everyCommandCompletes : Obligations.EveryCommandCompletes := by
  intro i s
  obtain ⟨f, hf⟩ := exec_spec i
  exact ⟨_, hf s⟩

/-- Settles O40: FINALIZE.W answers the register xor all-ones, and xor with all-ones undoes itself. -/
theorem resultAndRegisterDetermineEachOther : Obligations.ResultAndRegisterDetermineEachOther := by
  intro W s
  refine ⟨_, _, exec_finalizeOf W s, ?_, rfl, ?_⟩
  · rw [State.engine_setEngine, Engine.finalize_crcOut, Config.xorOut_eq_ones]
  · rw [BitVec.xor_assoc, BitVec.xor_self, BitVec.xor_zero]

/-- Settles O44: each command replaces its own engine by a function of that engine, which the other leaves alone. -/
theorem commandsToDifferentEnginesCommute : Obligations.CommandsToDifferentEnginesCommute := by
  intro i j s hij
  obtain ⟨f, hf⟩ := exec_spec i
  obtain ⟨g, hg⟩ := exec_spec j
  refine ⟨_, (execAll_cons_of_next (hf s) [j]).trans (execAll_cons_of_next (hg _) []), ?_⟩
  rw [execAll_cons_of_next (hg s), execAll_cons_of_next (hf _), execAll_nil, State.engine_setEngine_ne s hij,
    State.engine_setEngine_ne s (Ne.symm hij), State.setEngine_comm s hij]

/-- Engine W answers its own commands of a sequence and no others (R51). -/
theorem responses_filter (W : Width) (is : List Instr) (hs : s.engine W = s'.engine W) :
    responses W is s = responses W (is.filter fun i => i.width = W) s' := by
  induction is generalizing s s' with
  | nil => rfl
  | cons i is ih =>
    obtain ⟨f, hf⟩ := exec_spec i
    rw [responses_cons_of_next W (hf s)]
    by_cases hW : i.width = W
    · subst hW
      have hnext : (s.setEngine i.width (f (s.engine i.width))).engine i.width =
          (s'.setEngine i.width (f (s'.engine i.width))).engine i.width := by simp [hs]
      rw [List.filter_cons_of_pos (by simp), responses_cons_of_next _ (hf s'), hnext, ih hnext]
    · rw [List.filter_cons_of_neg (by simpa using hW), if_neg hW, List.nil_append]
      exact ih ((State.engine_setEngine_ne s (Ne.symm hW) _).trans hs)

/-- Settles O46: state and responses of engine W are those of its own commands alone. -/
theorem eachEngineRunsAsIfAlone : Obligations.EachEngineRunsAsIfAlone := by
  intro W is s
  obtain ⟨t, ht⟩ := execAll_next is s
  obtain ⟨u, hu⟩ := execAll_next (is.filter fun i => i.width = W) s
  exact ⟨t, u, ht, hu, engine_execAll_filter rfl ht hu, responses_filter W is rfl⟩

/-- Clearing responses and taking inputs leave the registers. -/
theorem sameRegisters_quiet_withPending (s : State) (rest : List Input) :
    SameRegisters s ({ s with pending := rest } : State).quiet := by
  intro W
  rw [State.engine_quiet, State.engine_withPending]
  exact ⟨rfl, rfl⟩

/-- Settles O45: the instant's commands for engine W are those on its port: none, or the one it then carries out. -/
theorem simultaneousEnginesRunIndependently : Obligations.SimultaneousEnginesRunIndependently := by
  intro s c rest hp hc
  obtain ⟨t, ht⟩ := execAll_next (instantCommands c) ({ s with pending := rest } : State).quiet
  refine ⟨t, ?step, pending_execAll ht, fun W => ⟨fun hport => ?none, fun q hport => ?one⟩⟩
  case step => rw [step_of_pending_commands hp, issue_of_wf hc, ht]
  case none =>
    have hnone : execAll ((instantCommands c).filter fun i => i.width = W) ({ s with pending := rest } : State).quiet =
        .next ({ s with pending := rest } : State).quiet := by
      rw [filter_instantCommands, hport]
      rfl
    rw [engine_execAll_filter rfl ht hnone, State.engine_quiet, State.engine_withPending]
  case one =>
    obtain ⟨u, v, hu, hv, -, huv⟩ :=
      exec_congr_registersIn (sameRegisters_quiet_withPending s rest W) (decodePorts W q)
    have hone : execAll ((instantCommands c).filter fun i => i.width = W) ({ s with pending := rest } : State).quiet =
        .next v := by
      rw [filter_instantCommands, hport, List.map_singleton, execAll_cons_of_next hv, execAll_nil]
    exact ⟨u, hu, (engine_execAll_filter rfl ht hone).trans (huv (width_decodePorts W q)).symm⟩

/-- A command keeps two states with the same registers alike. -/
theorem sameRegisters_exec {i : Instr} {t' : State} (hs : SameRegisters s s') (ht : exec i s = .next t)
    (ht' : exec i s' = .next t') : SameRegisters t t' := by
  intro W
  obtain ⟨u, u', hu, hu', huu', -⟩ := exec_congr_registersIn (hs W) i
  cases hu.symm.trans ht
  cases hu'.symm.trans ht'
  exact huu'

theorem pending_exec {i : Instr} (h : exec i s = .next t) : t.pending = s.pending :=
  pending_execAll ((execAll_cons_of_next h []).trans (execAll_nil t))

/-- A presented command is executed, on the state with the input taken and the responses cleared. -/
theorem step_of_pending_present {i : Instr} {rest : List Input} (h : s.pending = i.present :: rest) :
    step s = exec i ({ s with pending := rest } : State).quiet := by
  rw [step_of_pending_single h, decodePorts_encodePorts]

/-- Commands presented one per instant run like the sequence itself, registers compared: the responses that each instant
clears are not read by the next command. -/
theorem run_present {is : List Instr} {rest : List Input} (hp : s.pending = is.map Instr.present ++ rest)
    (hs : SameRegisters s s') :
    ∃ t u, Host.Core.run Sys2Proof.core is.length s = .next t ∧ execAll is s' = .next u ∧
      SameRegisters t u ∧ t.pending = rest := by
  induction is generalizing s s' with
  | nil => exact ⟨s, s', rfl, rfl, hs, hp⟩
  | cons i is ih =>
    obtain ⟨a, ha⟩ := everyCommandCompletes i ({ s with pending := is.map Instr.present ++ rest } : State).quiet
    obtain ⟨b, hb⟩ := everyCommandCompletes i s'
    have hquiet : SameRegisters ({ s with pending := is.map Instr.present ++ rest } : State).quiet s' :=
      fun W => (SameRegistersIn.symm (sameRegisters_quiet_withPending s _ W)).trans (hs W)
    obtain ⟨t, u, ht, hu, htu, hrest⟩ := ih (pending_exec ha) (sameRegisters_exec hquiet ha hb)
    have hstep : step s = .next a := (step_of_pending_present hp).trans ha
    exact ⟨t, u, (run_succ_of_next hstep _).trans ht, (execAll_cons_of_next hb is).trans hu, htu, hrest⟩

/-- Settles O47: `run_present` from the same state on both sides. -/
theorem presentedCommandsRunInOrder : Obligations.PresentedCommandsRunInOrder :=
  fun _ _ _ hp => run_present hp fun _ => ⟨rfl, rfl⟩

end Sys2Proof.Machine
end

section
/-! What engine W's answers depend on (R30, R31, R50). -/

namespace Sys2Proof.Machine

variable {W : Width} {s s' : State}

/-- What a command of engine W other than UPDATE.W leaves in REG_W and on the output port is a function of REG_W alone. -/
theorem exec_spec_of_op_ne_update {i : Instr} (hW : i.width = W) (hop : i.op ≠ .update) :
    ∃ (r : BitVec W.bits → BitVec W.bits) (o : BitVec W.bits → Option (BitVec W.bits)), ∀ s, ∃ t,
      exec i s = .next t ∧ (t.engine W).reg = r (s.engine W).reg ∧ (t.engine W).crcOut = o (s.engine W).reg := by
  obtain ⟨V, p, rfl⟩ | ⟨V, rfl⟩ | ⟨V, b, rfl⟩ | ⟨V, rfl⟩ := instr_cases i
  · obtain rfl : V = W := (width_createOf V p).symm.trans hW
    exact ⟨fun _ => Config.initValue _, fun _ => none, fun s => ⟨_, exec_createOf V p s, by simp⟩⟩
  · obtain rfl : V = W := (width_defaultOf V).symm.trans hW
    exact ⟨fun _ => Config.initValue _, fun _ => none, fun s => ⟨_, exec_defaultOf V s, by simp⟩⟩
  · exact absurd (op_updateOf V b) hop
  · obtain rfl : V = W := (width_finalizeOf V).symm.trans hW
    exact ⟨id, fun reg => some (reg ^^^ Config.xorOut _), fun s => ⟨_, exec_finalizeOf V s, by simp⟩⟩

/-- Settles O48: without UPDATE.W, REG_W alone determines REG_W and the response after each command. -/
theorem polynomialShowsOnlyThroughUpdate : Obligations.PolynomialShowsOnlyThroughUpdate := by
  intro W is s s' hreg hops
  induction is generalizing s s' with
  | nil => rfl
  | cons i is ih =>
    obtain ⟨hi, his⟩ := List.forall_mem_cons.mp hops
    by_cases hW : i.width = W
    · obtain ⟨r, o, hro⟩ := exec_spec_of_op_ne_update hW (hi hW)
      obtain ⟨t, ht, htr, hto⟩ := hro s
      obtain ⟨t', ht', htr', hto'⟩ := hro s'
      rw [responses_cons_of_next W ht, responses_cons_of_next W ht', hto, hto', hreg,
        ih t t' (by rw [htr, htr', hreg]) his]
    · obtain ⟨f, hf⟩ := exec_spec i
      rw [responses_cons_of_next W (hf s), responses_cons_of_next W (hf s'), if_neg hW, if_neg hW, ih _ _ ?_ his]
      rw [State.engine_setEngine_ne s (Ne.symm hW), State.engine_setEngine_ne s' (Ne.symm hW), hreg]

/-- Settles O49: after CREATE.W the registers of engine W are the same from any two states, and they determine its
responses. -/
theorem createErasesThePast : Obligations.CreateErasesThePast := by
  intro W p is s s'
  rw [responses_createOf_cons, responses_createOf_cons]
  exact responses_congr_registersIn (by simp [SameRegistersIn]) is

end Sys2Proof.Machine
end

section
/-! The checksum of a message (R100): on the running block, and as the pseudo-instructions return it (R72). -/

namespace Sys2Proof.Machine

open Claims

variable {W : Width} {s : State}

/-- A run of `m + n` steps whose first `m` answer a next state. -/
theorem run_add_of_next {t : State} {m : Nat} (h : Host.Core.run Sys2Proof.core m s = .next t) (n : Nat) :
    Host.Core.run Sys2Proof.core (m + n) s = Host.Core.run Sys2Proof.core n t := by
  induction m generalizing s with
  | zero =>
    cases h
    rw [Nat.zero_add]
  | succ m ih =>
    cases hstep : step s with
    | next u =>
      rw [run_succ_of_next hstep] at h
      rw [Nat.add_right_comm, run_succ_of_next hstep, ih h]
    | fault r => exact nomatch r
    | refused r => exact nomatch (run_succ_of_refused hstep m).symm.trans h

theorem run_one (s : State) : Host.Core.run Sys2Proof.core 1 s = step s := by
  cases h : step s with
  | next t => exact run_succ_of_next h 0
  | fault r => exact nomatch r
  | refused r => exact run_succ_of_refused h 0

/-- A message on the running block: a command that puts a fresh engine in place, the bytes, FINALIZE.W. The registers are
those of the sequence carried out in order; the last instant's response is FINALIZE's, and the other engines give none. -/
theorem run_message {first : Instr} {p : BitVec W.bits} (d : List Byte) {rest : List Input}
    (hfirst : ∀ s, exec first s = .next (s.setEngine W (Engine.create p)))
    (hp : s.pending = (first :: updateCommands W d ++ [Instr.finalizeOf W]).map Instr.present ++ rest) :
    ∃ t : State, Host.Core.run Sys2Proof.core (d.length + 2) s = .next t ∧
      t.engine W = { reg := updateMessage (Config.ones W.bits) p d, poly := p, crcOut := some (crc p d) } ∧
      (∀ U : Width, U ≠ W → t.engine U = (s.engine U).quiet) ∧ t.pending = rest := by
  obtain ⟨t, u, ht, hu, htu, hrest⟩ :=
    presentedCommandsRunInOrder (first :: updateCommands W d) ((Instr.finalizeOf W).present :: rest) s
      (by simpa using hp)
  rw [execAll_cons_of_next (hfirst s), execAll_updateCommands, State.engine_setEngine, State.setEngine_setEngine] at hu
  cases hu
  have hlen : d.length + 2 = (first :: updateCommands W d).length + 1 := by simp [updateCommands]
  have hrun : Host.Core.run Sys2Proof.core (d.length + 2) s =
      exec (Instr.finalizeOf W) ({ t with pending := rest } : State).quiet := by
    rw [hlen, run_add_of_next ht, run_one, step_of_pending_present hrest]
  refine ⟨_, hrun.trans (exec_finalizeOf W _), ?engine, fun U hU => ?others, ?pending⟩
  case engine =>
    obtain ⟨hreg, hpoly⟩ := htu W
    rw [State.engine_setEngine, State.engine_quiet, State.engine_withPending]
    refine Engine.ext_fields ?_ ?_ ?_
    · simpa using hreg
    · simpa using hpoly
    · simp [hreg, crc]
  case others =>
    obtain ⟨hreg, hpoly⟩ := htu U
    rw [State.engine_setEngine_ne s hU] at hreg hpoly
    rw [State.engine_setEngine_ne _ hU, State.engine_quiet, State.engine_withPending]
    exact Engine.ext_fields hreg hpoly rfl
  case pending => rw [State.pending_setEngine, State.pending_quiet]

/-- Settles O36: CREATE.W p and DEFAULT.W each put a fresh engine in place, with p and with the default polynomial. -/
theorem checksumOfAMessage : Obligations.ChecksumOfAMessage :=
  ⟨fun W p d _ _ => run_message d (exec_createOf W p), fun W d _ _ => run_message d (exec_defaultOf W)⟩

/-- From a fresh engine, the bytes and FINALIZE.W answer the checksum (R100). -/
theorem responses_updateCommands_finalizeOf_create (p : BitVec W.bits) (d : List Byte) (s : State) :
    responses W (updateCommands W d ++ [Instr.finalizeOf W]) (s.setEngine W (Engine.create p)) = [crc p d] := by
  simp [crc]

/-- Settles O50: the expansions are the definition's own, the responses are those of R100's sequence, and `assemble` tests
the line. -/
theorem pseudoInstructionsExpandAsListed : Obligations.PseudoInstructionsExpandAsListed := by
  refine ⟨?numbers, ?text, fun W => ⟨rfl, rfl⟩, fun W bytes => rfl, fun W poly bytes => rfl,
    fun W poly bytes s => ⟨?crc, ?crcp⟩, fun l => ⟨fun h => if_pos h, fun h => if_neg (by simp [h])⟩⟩
  case numbers =>
    intro W l
    exact List.map_map
  case text =>
    intro W l
    exact List.map_map
  case crc =>
    rw [expand, List.cons_append, responses_defaultOf_cons, responses_updateCommands_finalizeOf_create]
  case crcp =>
    rw [expand, List.cons_append, responses_createOf_cons, responses_updateCommands_finalizeOf_create]

end Sys2Proof.Machine
end

section
/-! The bit step and the fold, bit by bit and as linear maps (R118, R121). -/

namespace Sys2Proof.Machine

variable {W : Nat}

/-- The bit step without a branch: the feedback bit selects the polynomial or nothing. -/
theorem bitStep_eq_xor (r p : BitVec W) : bitStep r p = (r <<< 1) ^^^ (if msb r then p else 0#W) := by
  cases h : msb r with
  | false => simp [bitStep_of_not_msb h]
  | true => simp [bitStep_of_msb h]

/-- The feedback's row of AND gates (R118), bit by bit. -/
theorem getLsbD_feedback (f : Bool) (p : BitVec W) (i : Nat) :
    (if f then p else 0#W).getLsbD i = (f && p.getLsbD i) := by
  cases f <;> simp

/-- Settles O19: the shift brings bit i - 1 to bit i and nothing to bit 0; the feedback adds p where it is set. -/
theorem bitStepIsTheShiftRegister : Obligations.BitStepIsTheShiftRegister := by
  intro W r p hW
  refine ⟨?_, fun i h1 hi => ?_⟩
  · rw [bitStep_eq_xor, BitVec.getLsbD_xor, getLsbD_feedback, BitVec.getLsbD_shiftLeft, msb]
    simp
  · have hiW : i < W := by omega
    have hi0 : ¬ i < 1 := Nat.not_lt.mpr h1
    rw [bitStep_eq_xor, BitVec.getLsbD_xor, getLsbD_feedback, BitVec.getLsbD_shiftLeft, msb]
    simp [hiW, hi0]

@[simp] theorem msb_xor (a b : BitVec W) : msb (a ^^^ b) = (msb a ^^ msb b) := BitVec.getLsbD_xor

/-- Selecting a value by a bit is linear in the bit. -/
theorem ite_xor_eq (f g : Bool) (p : BitVec W) :
    (if f ^^ g then p else 0#W) = (if f then p else 0#W) ^^^ (if g then p else 0#W) := by
  cases f <;> cases g <;> simp

theorem bitStep_xor (a b p : BitVec W) : bitStep (a ^^^ b) p = bitStep a p ^^^ bitStep b p := by
  simp only [bitStep_eq_xor, msb_xor, ite_xor_eq, BitVec.shiftLeft_xor_distrib]
  ac_rfl

theorem bitSteps_xor (a b p : BitVec W) (n : Nat) :
    bitSteps p n (a ^^^ b) = bitSteps p n a ^^^ bitSteps p n b := by
  induction n generalizing a b with
  | zero => rfl
  | succ n ih => rw [bitSteps_succ, bitStep_xor, ih, bitSteps_succ, bitSteps_succ]

theorem alignByte_xor (A B : Byte) : alignByte W (A ^^^ B) = alignByte W A ^^^ alignByte W B := by
  rw [alignByte, BitVec.setWidth_xor, BitVec.shiftLeft_xor_distrib, alignByte, alignByte]

theorem fold_xor (a b p : BitVec W) (A B : Byte) : fold (a ^^^ b) p (A ^^^ B) = fold a p A ^^^ fold b p B := by
  have hsum : (a ^^^ b) ^^^ (alignByte W A ^^^ alignByte W B) = (a ^^^ alignByte W A) ^^^ (b ^^^ alignByte W B) := by
    ac_rfl
  rw [fold_eq_bitSteps, alignByte_xor, hsum, bitSteps_xor, fold_eq_bitSteps, fold_eq_bitSteps]

/-- The byte's part of a fold, apart from the register's. -/
theorem fold_xor_byte (r p : BitVec W) (A B : Byte) : fold r p (A ^^^ B) = fold r p A ^^^ fold 0#W p B := by
  simpa using fold_xor r 0#W p A B

@[simp] theorem fold_zero_zero (p : BitVec W) : fold 0#W p 0#8 = 0#W := by
  simpa using fold_xor_byte 0#W p 0#8 0#8

/-- Settles O22: linear in register and byte; the register 0x81, whose top bit is set, and the polynomials 1, 2 and 3 show
that neither is linear in the polynomial. -/
theorem stepAndFoldAreLinear : Obligations.StepAndFoldAreLinear := by
  refine ⟨fun W => bitStep_xor, fun W => fold_xor, fun W => fold_zero_zero, fun W r p B => ?split, ?step, ?fold⟩
  case split => simpa using fold_xor_byte r p 0#8 B
  case step => exact ⟨0x81#8, 0x01#8, 0x02#8, by decide⟩
  case fold => exact ⟨0x81#8, 0x01#8, 0x02#8, 0x00#8, by decide +kernel⟩

/-- Settles O28: the zero register by linearity; the default polynomials are evaluated. -/
theorem zeroStateAndLeadingZeroBytes : Obligations.ZeroStateAndLeadingZeroBytes := by
  refine ⟨fun W p => fold_zero_zero p, fun W => ?_⟩
  cases W <;> decide +kernel

end Sys2Proof.Machine
end

section
/-! The fold by the register's top byte (R123, R126), and with polynomial zero (R124, R145). -/

namespace Sys2Proof.Machine

open Claims

variable {W : Nat}

/-- The low bits only move up; the top byte and the byte together select the feedback (R123). -/
theorem fold_eq_shiftLeft_xor (hW : 8 ≤ W) (r p : BitVec W) (b : Byte) :
    fold r p b = (r <<< 8) ^^^ fold 0#W p (topByte r ^^^ b) := by
  have hb : b = topByte r ^^^ (topByte r ^^^ b) := by
    rw [← BitVec.xor_assoc, BitVec.xor_self, BitVec.zero_xor]
  calc fold r p b
    _ = fold r p (topByte r ^^^ (topByte r ^^^ b)) := by rw [← hb]
    _ = fold r p (topByte r) ^^^ fold 0#W p (topByte r ^^^ b) := fold_xor_byte r p _ _
    _ = (r <<< 8) ^^^ fold 0#W p (topByte r ^^^ b) := by rw [fold_topByte hW]

/-- At width 8 the top byte is the register. -/
theorem topByte_eight (r : BitVec 8) : topByte r = r := BitVec.extractLsb'_eq_self

/-- Settles O25: `fold_eq_shiftLeft_xor`; at width 8 the register is its own top byte and is shifted out. -/
theorem foldSplitsAtTheTopByte : Obligations.FoldSplitsAtTheTopByte := by
  refine ⟨fun W r p b hW => fold_eq_shiftLeft_xor (Nat.le_of_lt hW) r p b, fun r p b => ?_⟩
  rw [fold_eq_shiftLeft_xor (Nat.le_refl 8) r, topByte_eight, BitVec.shiftLeft_eq_zero (Nat.le_refl 8), BitVec.zero_xor]

theorem topByte_ones (hW : 8 ≤ W) : topByte (Config.ones W) = 0xFF#8 := by
  refine BitVec.eq_of_getLsbD_eq fun i hi => ?_
  have hin : W - 8 + i < W := by omega
  have hff : (0xFF#8).getLsbD i = true := by
    have hall : ∀ i < 8, (0xFF#8).getLsbD i = true := by decide
    exact hall i hi
  rw [topByte, BitVec.getLsbD_extractLsb', Config.ones, BitVec.getLsbD_allOnes, decide_eq_true hi, decide_eq_true hin,
    hff, Bool.and_self]

theorem fold_ones (hW : 8 ≤ W) (p : BitVec W) : fold (Config.ones W) p 0xFF#8 = Config.ones W <<< 8 := by
  rw [← topByte_ones hW, fold_topByte hW]

/-- Settles O29: `fold_topByte`, and 0xFF is the top byte of the all-ones register. -/
theorem byteThatCancelsTheTopOfTheRegister : Obligations.ByteThatCancelsTheTopOfTheRegister := by
  refine ⟨?_, fun W p hW => fold_ones hW p⟩
  rintro W r p _ hW rfl
  exact fold_topByte hW r p

theorem bitSteps_zero_poly (n : Nat) (r : BitVec W) : bitSteps 0#W n r = r <<< n := by
  induction n with
  | zero => rw [bitSteps_zero, BitVec.shiftLeft_zero]
  | succ n ih => rw [bitSteps_succ_last, ih, bitStep_zero_poly, BitVec.shiftLeft_add]

theorem fold_zero_poly_eq_align (r : BitVec W) (b : Byte) : fold r 0#W b = align r b <<< 8 :=
  bitSteps_zero_poly 8 (align r b)

/-- With polynomial zero the byte is shifted out whole. -/
theorem fold_zero_poly (hW : 8 ≤ W) (r : BitVec W) (b : Byte) : fold r 0#W b = r <<< 8 := by
  rw [fold_zero_poly_eq_align, align_eq_xor_alignByte, BitVec.shiftLeft_xor_distrib, alignByte_shiftLeft_eight hW,
    BitVec.xor_zero]

theorem updateMessage_zero_poly (hW : 8 ≤ W) (r : BitVec W) (d : List Byte) :
    updateMessage r 0#W d = r <<< (8 * d.length) := by
  induction d generalizing r with
  | nil => exact (BitVec.shiftLeft_zero r).symm
  | cons b d ih =>
    rw [updateMessage_cons, fold_zero_poly hW, ih, ← BitVec.shiftLeft_add, List.length_cons, Nat.mul_succ, Nat.add_comm]

/-- Settles O26: each byte shifts the register by eight bits, so 8n bits are gone after n bytes. -/
theorem polynomialZeroShiftsTheRegisterOut : Obligations.PolynomialZeroShiftsTheRegisterOut := by
  refine ⟨fun W r b _ => fold_zero_poly_eq_align r b, fun W r b hW => fold_zero_poly (Nat.le_of_lt hW) r b,
    fun r b => ?width8, fun W d hW => ⟨updateMessage_zero_poly hW _ d, fun hd => ?gone⟩⟩
  case width8 => rw [fold_zero_poly (Nat.le_refl 8), BitVec.shiftLeft_eq_zero (Nat.le_refl 8)]
  case gone => rw [updateMessage_zero_poly hW, BitVec.shiftLeft_eq_zero hd]

/-- A message on the engine with polynomial zero, from any state. -/
theorem execAll_message_zero_poly (W : Width) (d : List Byte) (s : State) :
    ∃ t, execAll (Instr.createOf W 0#W.bits :: d.map (Instr.updateOf W) ++ [Instr.finalizeOf W]) s = .next t ∧
      t.engine W = { reg := Config.ones W.bits <<< (8 * d.length), poly := 0#W.bits,
                     crcOut := some ((Config.ones W.bits <<< (8 * d.length)) ^^^ Config.ones W.bits) } := by
  have hmessage : execAll (Instr.createOf W 0#W.bits :: updateCommands W d) s =
      .next (s.setEngine W (d.foldl Engine.update (Engine.create 0#W.bits))) := by
    rw [execAll_cons_of_next (exec_createOf W _ s), execAll_updateCommands, State.engine_setEngine,
      State.setEngine_setEngine]
  refine ⟨_, (execAll_append hmessage _).trans (execAll_cons_of_next (exec_finalizeOf W _) []), ?_⟩
  rw [State.engine_setEngine, State.engine_setEngine]
  exact Engine.ext_fields (by simp [updateMessage_zero_poly (eight_le_bits W)]) (by simp)
    (by simp [updateMessage_zero_poly (eight_le_bits W)])

/-- The row that n bytes give: all-ones shifted left by 8n, and its complement. -/
def zeroPolyRow (W : Nat) (n : Nat) : BitVec W × BitVec W :=
  (Config.ones W <<< (8 * n), (Config.ones W <<< (8 * n)) ^^^ Config.ones W)

/-- A table whose row for n bytes is `zeroPolyRow` says what the engine does. -/
theorem polynomialZeroTable_of_rows {W : Width} {rows : List (BitVec W.bits × BitVec W.bits)}
    (hrows : rows = (List.range rows.length).map (zeroPolyRow W.bits)) : PolynomialZeroTable W rows := by
  intro s d row hrow
  have hrow' : row = zeroPolyRow W.bits d.length := by
    obtain ⟨hlt, -⟩ := List.getElem?_eq_some_iff.mp hrow
    rw [hrows, List.getElem?_map, List.getElem?_range hlt] at hrow
    exact (Option.some.inj hrow).symm
  rw [hrow']
  exact execAll_message_zero_poly W d s

/-- Settles O27: the tables are the shifts of all-ones; UPDATE.W with polynomial zero is `fold_zero_poly`, and of 0xFF on
all-ones it is `fold_ones`. -/
theorem polynomialZeroTables : Obligations.PolynomialZeroTables := by
  refine ⟨?w8, ?w16, ?w32, ?w64, ?w128, fun W b s hp => ⟨_, exec_updateOf W b s, ?update⟩, fun W s d hd => ?gone,
    fun W s hr => ⟨_, exec_updateOf W _ s, ?ones⟩⟩
  case w8 => exact polynomialZeroTable_of_rows (by decide)
  case w16 => exact polynomialZeroTable_of_rows (by decide)
  case w32 => exact polynomialZeroTable_of_rows (by decide)
  case w64 => exact polynomialZeroTable_of_rows (by decide +kernel)
  case w128 => exact polynomialZeroTable_of_rows (by decide +kernel)
  case update => rw [State.engine_setEngine, Engine.update_reg, hp, fold_zero_poly (eight_le_bits W)]
  case gone =>
    obtain ⟨t, ht, he⟩ := execAll_message_zero_poly W d s
    rw [BitVec.shiftLeft_eq_zero hd, BitVec.zero_xor] at he
    exact ⟨t, ht, he⟩
  case ones =>
    rw [State.engine_setEngine, Engine.update_reg, hr, Config.initValue_eq_ones, fold_ones (eight_le_bits W)]

end Sys2Proof.Machine
end

section
/-! The two realisations of the fold compute it (R118, R122), and the tables of the default polynomials (R146). -/

namespace Sys2Proof.Machine

open Claims

variable {W : Nat}

/-- The shift register's next value is the bit step: the mask of feedback bits selects the taps. -/
theorem shiftRegisterNext_eq_bitStep (r p : BitVec W) : shiftRegisterNext r p = bitStep r p := by
  rw [bitStep_eq_xor, shiftRegisterNext, ← msb]
  cases msb r with
  | false => simp
  | true => simp

/-- Clocks with `k` bit steps left: they are done one by one, and further clocks hold. -/
theorem SerialEngine.clocks_add (r p : BitVec W) (k n : Nat) :
    clocks (k + n) { shift := r, taps := p, left := k } = { shift := bitSteps p k r, taps := p, left := 0 } := by
  induction k generalizing r with
  | zero =>
    rw [Nat.zero_add]
    induction n with
    | zero => rfl
    | succ n ih => exact ih
  | succ k ih => rw [Nat.succ_add, clocks, clock, shiftRegisterNext_eq_bitStep, ih, bitSteps_succ]

/-- Settles O24: a byte is taken with eight bit steps left. -/
theorem eightClocksOfTheShiftRegisterComputeTheFold : Obligations.EightClocksOfTheShiftRegisterComputeTheFold :=
  fun _ r p b n => SerialEngine.clocks_add (r ^^^ alignByte _ b) p 8 n

/-- One more bit step moves every image of the polynomial up by one. -/
theorem tapImages_shiftLeft (p : BitVec W) (n : Nat) (fs : List Bool) :
    tapImages p n fs <<< 1 = tapImages p (n + 1) fs := by
  induction fs generalizing n with
  | nil => exact BitVec.zero_shiftLeft 1
  | cons f fs ih =>
    have himage : (if f then p <<< n else 0#W) <<< 1 = if f then p <<< (n + 1) else 0#W := by
      cases f with
      | false => exact BitVec.zero_shiftLeft 1
      | true => exact (BitVec.shiftLeft_add p n 1).symm
    rw [tapImages, BitVec.shiftLeft_xor_distrib, ih, himage, tapImages]

/-- The images' top bit is the polynomial's taps on the feedback bits, as long as no image is shifted out. -/
theorem msb_tapImages (p : BitVec W) (n : Nat) (fs : List Bool) (h : n + fs.length ≤ W) :
    msb (tapImages p n fs) = tapSum p (n + 1) fs := by
  induction fs generalizing n with
  | nil => simp [tapImages, tapSum, msb]
  | cons f fs ih =>
    rw [List.length_cons] at h
    have hplace : W - 1 - n = W - (n + 1) := by omega
    have hshift : msb (p <<< n) = p.getLsbD (W - (n + 1)) := by
      have hlt : W - 1 < W := by omega
      have hge : ¬ W - 1 < n := by omega
      rw [msb, BitVec.getLsbD_shiftLeft, hplace]
      simp [hlt, hge]
    rw [tapImages, msb_xor, ih (n + 1) (by omega), tapSum]
    cases f with
    | false => simp [msb]
    | true => simp [hshift]

@[simp] theorem length_feedbackBits (p : BitVec W) (t : Byte) (k : Nat) : (feedbackBits p t k).length = k := by
  induction k with
  | zero => rfl
  | succ k ih => rw [feedbackBits, List.length_cons, ih]

/-- The bit that the step after `k` shifts tests is a bit of the top byte. -/
theorem msb_shiftLeft_eq_topByte (hW : 8 ≤ W) (u : BitVec W) {k : Nat} (hk : k < 8) :
    msb (u <<< k) = (topByte u).getLsbD (7 - k) := by
  have hlt : W - 1 < W := by omega
  have hge : ¬ W - 1 < k := by omega
  have hin : 7 - k < 8 := by omega
  have hplace : W - 8 + (7 - k) = W - 1 - k := by omega
  rw [msb, BitVec.getLsbD_shiftLeft, topByte, BitVec.getLsbD_extractLsb', hplace]
  simp [hlt, hge, hin]

/-- `k` bit steps in one pass: the shifted register and the images that the first `k` feedback bits select (R122). -/
theorem bitSteps_eq_tapImages (hW : 8 ≤ W) (p u : BitVec W) {k : Nat} (hk : k ≤ 8) :
    bitSteps p k u = (u <<< k) ^^^ tapImages p 0 (feedbackBits p (topByte u) k) := by
  induction k with
  | zero => simp [feedbackBits, tapImages]
  | succ k ih =>
    have hfeedback : msb ((u <<< k) ^^^ tapImages p 0 (feedbackBits p (topByte u) k)) =
        ((topByte u).getLsbD (7 - k) ^^ tapSum p 1 (feedbackBits p (topByte u) k)) := by
      have hfit : 0 + (feedbackBits p (topByte u) k).length ≤ W := by
        rw [length_feedbackBits]
        omega
      rw [msb_xor, msb_shiftLeft_eq_topByte hW u hk, msb_tapImages p 0 _ hfit]
    rw [bitSteps_succ_last, ih (Nat.le_of_succ_le hk), bitStep_eq_xor, hfeedback, BitVec.shiftLeft_xor_distrib,
      tapImages_shiftLeft, ← BitVec.shiftLeft_add, feedbackBits, tapImages, BitVec.shiftLeft_zero]
    ac_rfl

/-- Settles O23: the tree is the eight bit steps in one pass, on the aligned register. -/
theorem xorTreeComputesTheFold : Obligations.XorTreeComputesTheFold :=
  fun _ r p b hW => (bitSteps_eq_tapImages hW p (r ^^^ alignByte _ b) (Nat.le_refl 8)).symm

/-- A byte is the xor of the one-bit bytes that it has. -/
theorem byte_eq_xorRows (t : Byte) : t = xorRows t 0 ((List.range 8).map fun j => 1#8 <<< j) := by
  revert t
  decide +kernel

/-- The fold of a selection of bytes is the selection of their folds. -/
theorem fold_xorRows (p : BitVec W) (t : Byte) (j : Nat) (rows : List Byte) :
    fold 0#W p (xorRows t j rows) = xorRows t j (rows.map (fold 0#W p)) := by
  induction rows generalizing j with
  | nil => exact fold_zero_zero p
  | cons row rows ih =>
    rw [xorRows, fold_xor_byte, ih, List.map_cons, xorRows]
    cases t.getLsbD j with
    | false => simp
    | true => simp

/-- R146 at any width: the table of a polynomial is the folds of the eight one-bit bytes. -/
theorem xorTreeTable_of_rows (hW : 8 ≤ W) {p : BitVec W} {rows : List (BitVec W)}
    (hrows : rows = (List.range 8).map (fun j => fold 0#W p (1#8 <<< j))) : XorTreeTable p rows := by
  have hg (t : Byte) : fold 0#W p t = xorRows t 0 rows := by
    calc fold 0#W p t
      _ = fold 0#W p (xorRows t 0 ((List.range 8).map fun j => 1#8 <<< j)) := by rw [← byte_eq_xorRows]
      _ = xorRows t 0 (((List.range 8).map fun j => 1#8 <<< j).map (fold 0#W p)) := fold_xorRows p t 0 _
      _ = xorRows t 0 rows := by rw [hrows, List.map_map]; rfl
  refine ⟨hrows, hg, fun r b => ?_⟩
  rw [fold_eq_shiftLeft_xor hW, hg, topByte]

/-- Settles O30: the rows are computed; the bit equations of widths 8 and 16 are checked on every byte. -/
theorem defaultPolynomialXorTrees : Obligations.DefaultPolynomialXorTrees := by
  refine ⟨?w8, ?bits8, ?w16, ?bits16, ?w32, ?w64, ?w128⟩
  case w8 => exact xorTreeTable_of_rows (by decide) (by decide +kernel)
  case bits8 => decide +kernel
  case w16 => exact xorTreeTable_of_rows (by decide) (by decide +kernel)
  case bits16 => decide +kernel
  case w32 => exact xorTreeTable_of_rows (by decide) (by decide +kernel)
  case w64 => exact xorTreeTable_of_rows (by decide) (by decide +kernel)
  case w128 => exact xorTreeTable_of_rows (by decide) (by decide +kernel)

end Sys2Proof.Machine
end

section
/-! The fold as polynomial division over GF(2) (R119, R120). A value congruent to a polynomial modulo the generator is its
remainder, so the proofs add up congruences: one for a bit step, then for a byte, then for a message. -/

namespace Sys2Proof.Machine

open Claims Polynomial

variable {W : Nat}

/-- The coefficients of a value's polynomial are its bits. -/
theorem coeff_asPoly (v : BitVec W) (i : Nat) : (asPoly v).coeff i = if v.getLsbD i then 1 else 0 := by
  have hterm (j : Nat) : (if v.getLsbD j then (X : (ZMod 2)[X]) ^ j else 0).coeff i =
      if i = j then (if v.getLsbD j then 1 else 0) else 0 := by
    cases v.getLsbD j with
    | false => simp
    | true => simp [coeff_X_pow]
  rw [asPoly, finsetSum_coeff, Finset.sum_congr rfl fun j _ => hterm j, Finset.sum_ite_eq]
  by_cases hi : i < W
  · rw [if_pos (Finset.mem_range.mpr hi)]
  · rw [if_neg (mt Finset.mem_range.mp hi), BitVec.getLsbD_of_ge v i (Nat.not_lt.mp hi)]
    rfl

theorem degree_asPoly_lt (v : BitVec W) : (asPoly v).degree < W := by
  rw [degree_lt_iff_coeff_zero]
  intro i hi
  rw [coeff_asPoly, BitVec.getLsbD_of_ge v i hi]
  rfl

/-- Xor of values is addition over GF(2). -/
theorem asPoly_xor (a b : BitVec W) : asPoly (a ^^^ b) = asPoly a + asPoly b := by
  have hbit (f g : Bool) : (if f ^^ g then (1 : ZMod 2) else 0) = (if f then 1 else 0) + (if g then 1 else 0) := by
    revert f g
    decide
  ext i
  rw [coeff_add, coeff_asPoly, coeff_asPoly, coeff_asPoly, BitVec.getLsbD_xor, hbit]

theorem asPoly_zero (W : Nat) : asPoly 0#W = 0 := by
  ext i
  rw [coeff_asPoly, BitVec.getLsbD_zero]
  rfl

/-- Multiplying by x shifts left; the bit shifted out is the coefficient of x^W. -/
theorem asPoly_mul_X (r : BitVec W) : asPoly r * X = asPoly (r <<< 1) + (if msb r then X ^ W else 0) := by
  have htop (i : Nat) : (if msb r then (X : (ZMod 2)[X]) ^ W else 0).coeff i = if msb r ∧ i = W then 1 else 0 := by
    cases msb r with
    | false => simp
    | true => simp [coeff_X_pow]
  ext i
  rw [coeff_add, coeff_asPoly, htop, BitVec.getLsbD_shiftLeft]
  cases i with
  | zero =>
    have hmsb : ¬ (msb r = true ∧ 0 = W) := by
      rintro ⟨h, rfl⟩
      simp [msb] at h
    simp [hmsb]
  | succ i =>
    rw [coeff_mul_X, coeff_asPoly]
    obtain hlt | heq | hgt := Nat.lt_trichotomy (i + 1) W
    · simp [hlt, hlt.ne]
    · have hlast : W - 1 = i := by omega
      simp [heq, msb, hlast]
    · have hbit : r.getLsbD i = false := BitVec.getLsbD_of_ge r i (Nat.le_of_lt_succ hgt)
      simp [hbit, hgt.ne', Nat.lt_asymm hgt]

/-- The aligned byte is the byte times x^(W-8). -/
theorem asPoly_alignByte (hW : 8 ≤ W) (b : Byte) : asPoly (alignByte W b) = asPoly b * X ^ (W - 8) := by
  ext i
  rw [coeff_asPoly, getLsbD_alignByte, coeff_mul_X_pow', coeff_asPoly]
  by_cases hi : W - 8 ≤ i
  · by_cases hiW : i < W
    · simp [hi, hiW]
    · have hbit : b.getLsbD (i - (W - 8)) = false := BitVec.getLsbD_of_ge b _ (by omega)
      simp [hbit]
  · simp [hi]

theorem generator_monic (p : BitVec W) : (generator p).Monic := monic_X_pow_add (degree_asPoly_lt p)

theorem degree_generator (p : BitVec W) : (generator p).degree = W := by
  rw [generator, degree_add_eq_left_of_degree_lt (by rw [degree_X_pow]; exact degree_asPoly_lt p), degree_X_pow]

/-- A W-bit value congruent to a polynomial modulo the generator is the polynomial's remainder: its degree is below W. -/
theorem asPoly_eq_modByMonic {v p : BitVec W} {f : (ZMod 2)[X]} (h : generator p ∣ f - asPoly v) :
    asPoly v = f %ₘ generator p := by
  obtain ⟨q, hq⟩ := h
  have hdeg : (asPoly v).degree < (generator p).degree := by
    rw [degree_generator]
    exact degree_asPoly_lt v
  exact (div_modByMonic_unique q (asPoly v) (generator_monic p) ⟨by rw [← hq, add_sub_cancel], hdeg⟩).2.symm

/-- A bit step is multiplication by x, less the generator where the top bit is set. -/
theorem generator_dvd_bitStep (r p : BitVec W) : generator p ∣ asPoly r * X - asPoly (bitStep r p) := by
  rw [asPoly_mul_X]
  cases h : msb r with
  | false => simp [bitStep_of_not_msb h]
  | true =>
    have hdiff : asPoly (r <<< 1) + X ^ W - asPoly (bitStep r p) = generator p := by
      rw [bitStep_of_msb h, asPoly_xor, generator, add_sub_add_left_eq_sub, CharTwo.sub_eq_add]
    simp [hdiff]

/-- Settles O20: the bit step is congruent to r(x) times x. -/
theorem bitStepIsTimesXModuloGenerator : Obligations.BitStepIsTimesXModuloGenerator :=
  fun _ r p _ => asPoly_eq_modByMonic (generator_dvd_bitStep r p)

/-- `n` bit steps multiply by x^n. -/
theorem generator_dvd_bitSteps (r p : BitVec W) (n : Nat) :
    generator p ∣ asPoly r * X ^ n - asPoly (bitSteps p n r) := by
  induction n generalizing r with
  | zero => simp
  | succ n ih =>
    have hsplit : asPoly r * X ^ (n + 1) - asPoly (bitSteps p (n + 1) r) =
        (asPoly r * X - asPoly (bitStep r p)) * X ^ n +
          (asPoly (bitStep r p) * X ^ n - asPoly (bitSteps p n (bitStep r p))) := by
      rw [bitSteps_succ]
      ring
    rw [hsplit]
    exact dvd_add (dvd_mul_of_dvd_left (generator_dvd_bitStep r p) _) (ih _)

/-- The fold of a byte: the register moves up by x^8 and the byte enters at x^W (R120). -/
theorem generator_dvd_fold (hW : 8 ≤ W) (r p : BitVec W) (b : Byte) :
    generator p ∣ asPoly r * X ^ 8 + asPoly b * X ^ W - asPoly (fold r p b) := by
  have halign : asPoly r * X ^ 8 + asPoly b * X ^ W = asPoly (r ^^^ alignByte W b) * X ^ 8 := by
    rw [asPoly_xor, asPoly_alignByte hW, add_mul, mul_assoc, ← pow_add, Nat.sub_add_cancel hW]
  rw [halign, fold_eq_bitSteps]
  exact generator_dvd_bitSteps _ p 8

/-- The first byte stands highest in the message's polynomial. -/
theorem messagePoly_cons (b : Byte) (d : List Byte) :
    messagePoly (b :: d) = asPoly b * X ^ (8 * d.length) + messagePoly d := by
  have hplace (k : Nat) : d.length - 1 - k = d.length - (k + 1) := by omega
  rw [messagePoly, List.length_cons, Finset.sum_range_succ', add_comm, messagePoly]
  simp [hplace]

/-- The fold of a message: its bytes' congruences added up (R120). -/
theorem generator_dvd_updateMessage (hW : 8 ≤ W) (r p : BitVec W) (d : List Byte) :
    generator p ∣ asPoly r * X ^ (8 * d.length) + messagePoly d * X ^ W - asPoly (updateMessage r p d) := by
  induction d generalizing r with
  | nil => simp [messagePoly]
  | cons b d ih =>
    have hsplit : asPoly r * X ^ (8 * (b :: d).length) + messagePoly (b :: d) * X ^ W -
          asPoly (updateMessage r p (b :: d)) =
        (asPoly r * X ^ 8 + asPoly b * X ^ W - asPoly (fold r p b)) * X ^ (8 * d.length) +
          (asPoly (fold r p b) * X ^ (8 * d.length) + messagePoly d * X ^ W -
            asPoly (updateMessage (fold r p b) p d)) := by
      rw [messagePoly_cons, List.length_cons, updateMessage_cons]
      ring
    rw [hsplit]
    exact dvd_add (dvd_mul_of_dvd_left (generator_dvd_fold hW r p b) _) (ih _)

/-- Settles O21: the folds of a byte and of a message are congruent to the dividends. -/
theorem foldIsPolynomialDivision : Obligations.FoldIsPolynomialDivision :=
  ⟨fun _ r p b hW => asPoly_eq_modByMonic (generator_dvd_fold hW r p b),
    fun _ r p d hW => asPoly_eq_modByMonic (generator_dvd_updateMessage hW r p d)⟩

end Sys2Proof.Machine
end
